-- ==== Sys2Proof/Word.lean ====
section
/-! DEFINITION. The plain value types of the CHIP-8 core: bytes, 16-bit words, 12-bit address literals, register and key
indices (spec 00_scope.md R9, R10; 30_encoding.md R71). -/

namespace Sys2Proof

/-- An 8-bit value: a register, a timer, a memory byte (10_state.md R21, R27, R33). -/
abbrev Byte := BitVec 8

/-- A 16-bit value: an instruction word, I, pc, a stack slot (10_state.md R23, R24, R26). -/
abbrev Word := BitVec 16

/-- The 12-bit address literal `nnn` (30_encoding.md R71). -/
abbrev Addr12 := BitVec 12

/-- The index of a general register V0..VF (10_state.md R21). -/
abbrev Reg := Fin 16

/-- The index of a key 0..15 (10_state.md R30). -/
abbrev Key := Fin 16

/-- VF, the flag register: V[15] (10_state.md R22). -/
abbrev vf : Reg := 15

end Sys2Proof
end

