-- ==== Sys2Proof/Syntax.lean ====
section
/-! DEFINITION. The instructions: one constructor for each of the 34 rows of the opcode map (spec 30_encoding.md R73,
opcode_table.json), carrying the fields its pattern names (R71). -/

namespace Sys2Proof

/-- An instruction of base CHIP-8. The row count `n` of DRW is a natural number, bounded by `Instr.WellFormed`; every
other field is bounded by its type. SHR and SHL keep the `y` field that their meaning ignores (43_alu_load.md R150, R152), so
that no bit of a word is lost. -/
inductive Instr where
  /-- 00E0 CLS (R100) -/
  | cls
  /-- 00EE RET (R121) -/
  | ret
  /-- 1nnn JP nnn (R123) -/
  | jp (nnn : Addr12)
  /-- 2nnn CALL nnn (R122) -/
  | call (nnn : Addr12)
  /-- 3xkk SE Vx, kk (R125) -/
  | seByte (x : Reg) (kk : Byte)
  /-- 4xkk SNE Vx, kk (R126) -/
  | sneByte (x : Reg) (kk : Byte)
  /-- 5xy0 SE Vx, Vy (R127) -/
  | seReg (x y : Reg)
  /-- 6xkk LD Vx, kk (R142) -/
  | ldByte (x : Reg) (kk : Byte)
  /-- 7xkk ADD Vx, kk (R143) -/
  | addByte (x : Reg) (kk : Byte)
  /-- 8xy0 LD Vx, Vy (R144) -/
  | ldReg (x y : Reg)
  /-- 8xy1 OR Vx, Vy (R145) -/
  | or (x y : Reg)
  /-- 8xy2 AND Vx, Vy (R146) -/
  | and (x y : Reg)
  /-- 8xy3 XOR Vx, Vy (R147) -/
  | xor (x y : Reg)
  /-- 8xy4 ADD Vx, Vy (R148) -/
  | addReg (x y : Reg)
  /-- 8xy5 SUB Vx, Vy (R149) -/
  | sub (x y : Reg)
  /-- 8xy6 SHR Vx (R150) -/
  | shr (x y : Reg)
  /-- 8xy7 SUBN Vx, Vy (R151) -/
  | subn (x y : Reg)
  /-- 8xyE SHL Vx (R152) -/
  | shl (x y : Reg)
  /-- 9xy0 SNE Vx, Vy (R128) -/
  | sneReg (x y : Reg)
  /-- Annn LD I, nnn (R170) -/
  | ldI (nnn : Addr12)
  /-- Bnnn JP V0, nnn (R124) -/
  | jpV0 (nnn : Addr12)
  /-- Cxkk RND Vx, kk (R153) -/
  | rnd (x : Reg) (kk : Byte)
  /-- Dxyn DRW Vx, Vy, n (R101) -/
  | drw (x y : Reg) (n : Nat)
  /-- Ex9E SKP Vx (R193) -/
  | skp (x : Reg)
  /-- ExA1 SKNP Vx (R194) -/
  | sknp (x : Reg)
  /-- Fx07 LD Vx, DT (R190) -/
  | ldVxDt (x : Reg)
  /-- Fx0A LD Vx, K (R200) -/
  | ldVxK (x : Reg)
  /-- Fx15 LD DT, Vx (R191) -/
  | ldDtVx (x : Reg)
  /-- Fx18 LD ST, Vx (R192) -/
  | ldStVx (x : Reg)
  /-- Fx1E ADD I, Vx (R171) -/
  | addI (x : Reg)
  /-- Fx29 LD F, Vx (R172) -/
  | ldF (x : Reg)
  /-- Fx33 LD B, Vx (R173) -/
  | ldB (x : Reg)
  /-- Fx55 LD [I], Vx (R174) -/
  | storeRegs (x : Reg)
  /-- Fx65 LD Vx, [I] (R175) -/
  | loadRegs (x : Reg)
deriving DecidableEq, Repr

end Sys2Proof
end

