-- ==== Sys2Proof/Decode.lean ====
section
/-! DEFINITION. The instruction words: fields, byte order, the opcode map as a table, the decoder, and after it the encoder
(spec 30_encoding.md R70-R77). -/

namespace Sys2Proof

/-- The word whose more significant byte is `hi`: instruction words are big-endian (20_memory.md R54, R55). -/
def wordOfBytes (hi lo : Byte) : Word := hi ++ lo

/-- The byte of a word that lies at the LOWER address: bits 15:8 (20_memory.md R55). -/
def hiByte (w : Word) : Byte := w.extractLsb' 8 8

/-- The byte of a word that lies at the HIGHER address: bits 7:0 (20_memory.md R55). -/
def loByte (w : Word) : Byte := w.extractLsb' 0 8

/-- Field `op`, bits 15:12 (30_encoding.md R71). -/
def fieldOp (w : Word) : BitVec 4 := w.extractLsb' 12 4

/-- Field `x`, bits 11:8, a register index (30_encoding.md R71). -/
def fieldX (w : Word) : Reg := (w.extractLsb' 8 4).toFin

/-- Field `y`, bits 7:4, a register index (30_encoding.md R71). -/
def fieldY (w : Word) : Reg := (w.extractLsb' 4 4).toFin

/-- Field `n`, bits 3:0, a row count (30_encoding.md R71). -/
def fieldN (w : Word) : Nat := (w.extractLsb' 0 4).toNat

/-- Field `kk`, bits 7:0 (30_encoding.md R71). -/
def fieldKK (w : Word) : Byte := w.extractLsb' 0 8

/-- Field `nnn`, bits 11:0 (30_encoding.md R71). -/
def fieldNNN (w : Word) : Addr12 := w.extractLsb' 0 12

/-- A row of the opcode map: the word is this instruction when its masked bits are `value` (30_encoding.md R73). -/
structure OpcodeRow where
  /-- the bits the pattern fixes -/
  mask : Word
  /-- what those bits must be: the table's `match` -/
  value : Word
  /-- the instruction the word then is, with its fields -/
  build : Word → Instr

/-- Groups 0 to 7 of the opcode map (30_encoding.md R73). -/
def opcodeRowsLow : List OpcodeRow :=
  [ ⟨0xFFFF, 0x00E0, fun _ => .cls⟩,
    ⟨0xFFFF, 0x00EE, fun _ => .ret⟩,
    ⟨0xF000, 0x1000, fun w => .jp (fieldNNN w)⟩,
    ⟨0xF000, 0x2000, fun w => .call (fieldNNN w)⟩,
    ⟨0xF000, 0x3000, fun w => .seByte (fieldX w) (fieldKK w)⟩,
    ⟨0xF000, 0x4000, fun w => .sneByte (fieldX w) (fieldKK w)⟩,
    ⟨0xF00F, 0x5000, fun w => .seReg (fieldX w) (fieldY w)⟩,
    ⟨0xF000, 0x6000, fun w => .ldByte (fieldX w) (fieldKK w)⟩,
    ⟨0xF000, 0x7000, fun w => .addByte (fieldX w) (fieldKK w)⟩ ]

/-- Group 8 of the opcode map, the register-to-register ALU (30_encoding.md R73). -/
def opcodeRowsAlu : List OpcodeRow :=
  [ ⟨0xF00F, 0x8000, fun w => .ldReg (fieldX w) (fieldY w)⟩,
    ⟨0xF00F, 0x8001, fun w => .or (fieldX w) (fieldY w)⟩,
    ⟨0xF00F, 0x8002, fun w => .and (fieldX w) (fieldY w)⟩,
    ⟨0xF00F, 0x8003, fun w => .xor (fieldX w) (fieldY w)⟩,
    ⟨0xF00F, 0x8004, fun w => .addReg (fieldX w) (fieldY w)⟩,
    ⟨0xF00F, 0x8005, fun w => .sub (fieldX w) (fieldY w)⟩,
    ⟨0xF00F, 0x8006, fun w => .shr (fieldX w) (fieldY w)⟩,
    ⟨0xF00F, 0x8007, fun w => .subn (fieldX w) (fieldY w)⟩,
    ⟨0xF00F, 0x800E, fun w => .shl (fieldX w) (fieldY w)⟩ ]

/-- Groups 9 to E of the opcode map (30_encoding.md R73). -/
def opcodeRowsHigh : List OpcodeRow :=
  [ ⟨0xF00F, 0x9000, fun w => .sneReg (fieldX w) (fieldY w)⟩,
    ⟨0xF000, 0xA000, fun w => .ldI (fieldNNN w)⟩,
    ⟨0xF000, 0xB000, fun w => .jpV0 (fieldNNN w)⟩,
    ⟨0xF000, 0xC000, fun w => .rnd (fieldX w) (fieldKK w)⟩,
    ⟨0xF000, 0xD000, fun w => .drw (fieldX w) (fieldY w) (fieldN w)⟩,
    ⟨0xF0FF, 0xE09E, fun w => .skp (fieldX w)⟩,
    ⟨0xF0FF, 0xE0A1, fun w => .sknp (fieldX w)⟩ ]

/-- Group F of the opcode map (30_encoding.md R73). -/
def opcodeRowsF : List OpcodeRow :=
  [ ⟨0xF0FF, 0xF007, fun w => .ldVxDt (fieldX w)⟩,
    ⟨0xF0FF, 0xF00A, fun w => .ldVxK (fieldX w)⟩,
    ⟨0xF0FF, 0xF015, fun w => .ldDtVx (fieldX w)⟩,
    ⟨0xF0FF, 0xF018, fun w => .ldStVx (fieldX w)⟩,
    ⟨0xF0FF, 0xF01E, fun w => .addI (fieldX w)⟩,
    ⟨0xF0FF, 0xF029, fun w => .ldF (fieldX w)⟩,
    ⟨0xF0FF, 0xF033, fun w => .ldB (fieldX w)⟩,
    ⟨0xF0FF, 0xF055, fun w => .storeRegs (fieldX w)⟩,
    ⟨0xF0FF, 0xF065, fun w => .loadRegs (fieldX w)⟩ ]

/-- The opcode map: its 34 rows (30_encoding.md R73). -/
def opcodeTable : List OpcodeRow := opcodeRowsLow ++ (opcodeRowsAlu ++ (opcodeRowsHigh ++ opcodeRowsF))

/-- Whether a word is the row's instruction (30_encoding.md R73). -/
def OpcodeRow.accepts (r : OpcodeRow) (w : Word) : Bool := w &&& r.mask == r.value

/-- `Decode(w)`: the one instruction whose pattern the word matches, or none: an invalid word (30_encoding.md R73, R74, R77). -/
def decodeWord (w : Word) : Option Instr :=
  (opcodeTable.find? fun r => r.accepts w).map fun r => r.build w

/-- What a decoder of bytes answers: an instruction and the bytes after it, or why there is none. -/
inductive Decoded where
  /-- an instruction, and the rest of the bytes -/
  | instr (i : Instr) (rest : List Byte)
  /-- the first two bytes make a word that matches no pattern (30_encoding.md R74) -/
  | invalidOpcode (w : Word)
  /-- fewer than the two bytes of a word (30_encoding.md R70) -/
  | truncated (bytes : List Byte)
deriving DecidableEq, Repr

/-- The decoder on any bytes: the first two, big-endian, are the word (30_encoding.md R70, 20_memory.md R54). -/
def decodeBytes : List Byte → Decoded
  | hi :: lo :: rest =>
    match decodeWord (wordOfBytes hi lo) with
    | some i => .instr i rest
    | none => .invalidOpcode (wordOfBytes hi lo)
  | bytes => .truncated bytes

/-- The instruction this decoder reads from a word whose low `nbits` bits are `w`, numbered as opcode_table.json numbers
them (bit 0 the least significant bit of the word), laid out as the hardware stores it. -/
def decodeTableWord (nbits w : Nat) : Option Instr :=
  let word : Word := BitVec.ofNat 16 (w % 2 ^ nbits)
  match decodeBytes [hiByte word, loByte word] with
  | .instr i _ => some i
  | .invalidOpcode _ => none
  | .truncated _ => none

/-- The 4 bits of a register index in a word (30_encoding.md R71). -/
def regBits (r : Reg) : BitVec 4 := BitVec.ofFin r

/-- A word of the form `op x kk` (30_encoding.md R71). -/
def formXKK (op : BitVec 4) (x : Reg) (kk : Byte) : Word := (op ++ regBits x) ++ kk

/-- A word of the form `op x y n` (30_encoding.md R71). -/
def formXYN (op : BitVec 4) (x y : Reg) (n : BitVec 4) : Word := (op ++ regBits x) ++ (regBits y ++ n)

/-- A word of the form `op nnn` (30_encoding.md R71). -/
def formNNN (op : BitVec 4) (nnn : Addr12) : Word := op ++ nnn

/-- The word of an instruction, written from the patterns of the opcode map (30_encoding.md R73). -/
def encode : Instr → Word
  | .cls => 0x00E0
  | .ret => 0x00EE
  | .jp nnn => formNNN 0x1 nnn
  | .call nnn => formNNN 0x2 nnn
  | .seByte x kk => formXKK 0x3 x kk
  | .sneByte x kk => formXKK 0x4 x kk
  | .seReg x y => formXYN 0x5 x y 0x0
  | .ldByte x kk => formXKK 0x6 x kk
  | .addByte x kk => formXKK 0x7 x kk
  | .ldReg x y => formXYN 0x8 x y 0x0
  | .or x y => formXYN 0x8 x y 0x1
  | .and x y => formXYN 0x8 x y 0x2
  | .xor x y => formXYN 0x8 x y 0x3
  | .addReg x y => formXYN 0x8 x y 0x4
  | .sub x y => formXYN 0x8 x y 0x5
  | .shr x y => formXYN 0x8 x y 0x6
  | .subn x y => formXYN 0x8 x y 0x7
  | .shl x y => formXYN 0x8 x y 0xE
  | .sneReg x y => formXYN 0x9 x y 0x0
  | .ldI nnn => formNNN 0xA nnn
  | .jpV0 nnn => formNNN 0xB nnn
  | .rnd x kk => formXKK 0xC x kk
  | .drw x y n => formXYN 0xD x y (BitVec.ofNat 4 n)
  | .skp x => formXKK 0xE x 0x9E
  | .sknp x => formXKK 0xE x 0xA1
  | .ldVxDt x => formXKK 0xF x 0x07
  | .ldVxK x => formXKK 0xF x 0x0A
  | .ldDtVx x => formXKK 0xF x 0x15
  | .ldStVx x => formXKK 0xF x 0x18
  | .addI x => formXKK 0xF x 0x1E
  | .ldF x => formXKK 0xF x 0x29
  | .ldB x => formXKK 0xF x 0x33
  | .storeRegs x => formXKK 0xF x 0x55
  | .loadRegs x => formXKK 0xF x 0x65

end Sys2Proof
end

