-- ==== Sys2Proof/Config.lean ====
section
/-! DEFINITION. What the implementation fixes (spec 00_scope.md R7) and the one free value of the spec, the random byte. -/

namespace Sys2Proof

/-- `PROGRAM_ORIGIN`: where execution starts and where `load` puts the image (00_scope.md R7, 70_reset_and_hazards.md R251, R253). -/
def Config.programOrigin : Word := 0x200

/-- The parameter `RNG` (00_scope.md R7, 60_exceptions.md R228, D19): the byte that the `n`-th draw of the machine takes.
FREE VALUE: it has no body, so nothing can be proved of any draw; log entry 1. -/
opaque Config.randomByte : Nat → Byte

end Sys2Proof
end

