-- ==== Sys2Proof/Machine/State.lean ====
section
/-! DEFINITION. The state of the CHIP-8 core (spec 10_state.md R20), the errors a step can end with (60_exceptions.md R210),
and the state right after reset (70_reset_and_hazards.md R250). -/

namespace Sys2Proof.Machine

/-- Memory `M` as a list of (address, byte) cells, addresses strictly rising, holding exactly the bytes that differ from
their reset contents: the canonical form `Memory.wf` (10_state.md R33; log entry 9). -/
abbrev Memory := List Host.Cell

/-- The framebuffer: 64 columns of 32 one-bit pixels, `fb[x][y]` being the pixel in column x and row y (10_state.md R29). -/
abbrev Framebuffer := Vector (Vector Bool 32) 64

/-- The architectural state, the tuple of 10_state.md R20, and one field of the model's own (`draws`). -/
structure State where
  /-- M: the memory (R33) -/
  mem : Memory
  /-- V0..VF (R21, R22) -/
  v : Vector Byte 16
  /-- I: the index register (R23) -/
  i : Word
  /-- pc: the program counter (R24) -/
  pc : Word
  /-- SP: the number of return addresses held, 0 to 15 (R25) -/
  sp : Fin 16
  /-- S[0..15]: the call stack (R26) -/
  stack : Vector Word 16
  /-- DT: the delay timer (R27) -/
  dt : Byte
  /-- ST: the sound timer (R28) -/
  st : Byte
  /-- FB: the framebuffer (R29) -/
  fb : Framebuffer
  /-- K[0..15]: the key-down states, true for down (R30) -/
  keys : Vector Bool 16
  /-- AW: the key-wait register (R31) -/
  aw : Option Reg
  /-- KP: the key-press latch (R32) -/
  kp : Option Key
  /-- the MODEL'S OWN: how many random bytes have been drawn, which picks the next free value (log entry 1) -/
  draws : Nat
deriving DecidableEq, Repr

/-- The errors of 60_exceptions.md R210, each with the information it records. Every one is the spec's own error: the core
returns it to the host with the state unchanged (R219), so stopping there is SAFE: the hardware does not go on either. -/
inductive Fault where
  /-- Code 1. Raised by the decode of any fetching step whose word `w` matches no pattern (R211). Safe. -/
  | invalidOpcode (pc w : Word)
  /-- Code 2. Raised by CALL with SP = 15 (R212). Safe. -/
  | stackOverflow (pc : Word)
  /-- Code 3. Raised by RET with SP = 0 (R213). Safe. -/
  | stackUnderflow (pc : Word)
  /-- Code 4. Raised by the fetch, DRW, Fx33, Fx55 and Fx65 at the first address `a` above 0xFFF (R214). Safe. -/
  | addressOutOfRange (pc : Word) (a : Nat)
  /-- Code 5. Raised by SKP and SKNP when Vx = `key` exceeds 15 (R215). Safe. -/
  | invalidKeyIndex (pc : Word) (key : Byte)
  /-- Code 6. Raised by the framebuffer operations Toggle and Read outside 64 x 32 (R216); no step raises it. Safe. -/
  | outOfRangePixel (x y : Nat)
  /-- Code 7. Raised by the host operation `load` for an image of more than 3584 bytes (R217). Safe. -/
  | loadError (length : Nat)
deriving DecidableEq, Repr

/-- Why the model has no transition. -/
inductive Refusal where
  /-- Raised by an arm of `exec` for an instruction without a meaning yet; no arm does. Safe. -/
  | notModelled (mnemonic : String)
  /-- Raised by the host operation `set_key` with an index above 15, a call outside the interface that "A model refuses"
  (60_exceptions.md R226, D26). Safe. -/
  | keyOutsideInterface (key : Nat)
deriving DecidableEq, Repr

/-- The state right after reset, `new()` with the default font (70_reset_and_hazards.md R250): an unlisted memory address
reads as its reset contents, so reset memory lists nothing. `draws` is the model's own (DESIGN CHOICE, log entry 1). -/
def State.reset : State where
  mem := []
  v := Vector.replicate 16 0
  i := 0
  pc := Config.programOrigin
  sp := 0
  stack := Vector.replicate 16 0
  dt := 0
  st := 0
  fb := Vector.replicate 64 (Vector.replicate 32 false)
  keys := Vector.replicate 16 false
  aw := none
  kp := none
  draws := 0

end Sys2Proof.Machine
end

