-- ==== Sys2Proof/Machine/Framebuffer.lean ====
section
/-! DEFINITION. The framebuffer and its three operations (spec 41_display.md R102-R104). -/

namespace Sys2Proof.Machine

/-- The framebuffer with every pixel unlit: what `Clear()` makes of any framebuffer (41_display.md R102). -/
def Framebuffer.clear : Framebuffer := Vector.replicate 64 (Vector.replicate 32 false)

/-- The pixel in column `x` and row `y` (10_state.md R29). -/
def Framebuffer.pixel (fb : Framebuffer) (x : Fin 64) (y : Fin 32) : Bool := fb[x][y]

/-- The framebuffer with the pixel in column `x` and row `y` set to `lit`. -/
def Framebuffer.setPixel (fb : Framebuffer) (x : Fin 64) (y : Fin 32) (lit : Bool) : Framebuffer :=
  fb.set x (fb[x].set y lit)

/-- `Toggle(x, y)`: XOR-flips the pixel and returns whether it was lit before; outside the grid it raises OutOfRangePixel
(41_display.md R103). -/
def Framebuffer.toggle (fb : Framebuffer) (x y : Nat) : Except Fault (Framebuffer × Bool) :=
  if h : x < 64 ∧ y < 32 then
    let old := fb.pixel ⟨x, h.1⟩ ⟨y, h.2⟩
    .ok (fb.setPixel ⟨x, h.1⟩ ⟨y, h.2⟩ (!old), old)
  else .error (.outOfRangePixel x y)

/-- `Read(x, y)`: the pixel, or OutOfRangePixel outside the grid (41_display.md R104). -/
def Framebuffer.readPixel (fb : Framebuffer) (x y : Nat) : Except Fault Bool :=
  if h : x < 64 ∧ y < 32 then .ok (fb.pixel ⟨x, h.1⟩ ⟨y, h.2⟩) else .error (.outOfRangePixel x y)

/-- One row of a sprite: for each column offset `b` of the list, bit `7 - b` of the row byte, if set, toggles the pixel at
column `(cx + b) mod 64` of row `py`; `collided` gathers whether any toggled pixel was lit (41_display.md R101). -/
def drawRow (row : Byte) (cx py : Nat) : List Nat → Framebuffer → Bool → Except Fault (Framebuffer × Bool)
  | [], fb, collided => .ok (fb, collided)
  | b :: bs, fb, collided =>
    if row.getLsbD (7 - b) then
      match fb.toggle ((cx + b) % 64) py with
      | .error e => .error e
      | .ok (fb', wasLit) => drawRow row cx py bs fb' (collided || wasLit)
    else drawRow row cx py bs fb collided

/-- The column offsets of a sprite row, bit 7 first (41_display.md R101). -/
def spriteColumns : List Nat := [0, 1, 2, 3, 4, 5, 6, 7]

/-- The rows of a sprite, the first of the list at row `(cy + r) mod 32` of the grid, the next one below it
(41_display.md R101). -/
def drawRows (cx cy : Nat) : List Byte → Nat → Framebuffer → Bool → Except Fault (Framebuffer × Bool)
  | [], _, fb, collided => .ok (fb, collided)
  | row :: rows, r, fb, collided =>
    match drawRow row cx ((cy + r) % 32) spriteColumns fb collided with
    | .error e => .error e
    | .ok (fb', collided') => drawRows cx cy rows (r + 1) fb' collided'

/-- The XOR draw of a sprite with its first row at column `cx` and row `cy`: the framebuffer after it and whether any
pixel went from lit to unlit (41_display.md R101). -/
def drawSprite (cx cy : Nat) (rows : List Byte) (fb : Framebuffer) : Except Fault (Framebuffer × Bool) :=
  drawRows cx cy rows 0 fb false

end Sys2Proof.Machine
end

