-- ==== Sys2Proof/Machine/Memory.lean ====
section
/-! DEFINITION. Memory: the font, what an unlisted address reads as, reading and writing one byte, the canonical form
(spec 20_memory.md). -/

namespace Sys2Proof.Machine

/-- The highest valid address, 0xFFF (20_memory.md R50, R51). -/
def maxAddress : Nat := 0xFFF

/-- `FONT_BASE`: the address of the glyph of digit 0 (20_memory.md R60, D8). -/
def fontBase : Nat := 0x000

/-- `FONT_GLYPH_BYTES`: five rows for each hex digit (00_scope.md R7). -/
def fontGlyphBytes : Nat := 5

/-- The glyphs of the digits 0 to 7 in the default FONT_TABLE (20_memory.md R60). PRESUMED, log entry 2. -/
def defaultGlyphsLow : List Byte :=
  [ 0xF0, 0x90, 0x90, 0x90, 0xF0,
    0x20, 0x60, 0x20, 0x20, 0x70,
    0xF0, 0x10, 0xF0, 0x80, 0xF0,
    0xF0, 0x10, 0xF0, 0x10, 0xF0,
    0x90, 0x90, 0xF0, 0x10, 0x10,
    0xF0, 0x80, 0xF0, 0x10, 0xF0,
    0xF0, 0x80, 0xF0, 0x90, 0xF0,
    0xF0, 0x10, 0x20, 0x40, 0x40 ]

/-- The glyphs of the digits 8 to F in the default FONT_TABLE (20_memory.md R60). PRESUMED, log entry 2. -/
def defaultGlyphsHigh : List Byte :=
  [ 0xF0, 0x90, 0xF0, 0x90, 0xF0,
    0xF0, 0x90, 0xF0, 0x10, 0xF0,
    0xF0, 0x90, 0xF0, 0x90, 0x90,
    0xE0, 0x90, 0xE0, 0x90, 0xE0,
    0xF0, 0x80, 0x80, 0x80, 0xF0,
    0xE0, 0x90, 0x90, 0x90, 0xE0,
    0xF0, 0x80, 0xF0, 0x80, 0xF0,
    0xF0, 0x80, 0xF0, 0x80, 0x80 ]

/-- The default FONT_TABLE: 80 bytes, in digit order, rows 0 to 4 (20_memory.md R60). PRESUMED, log entry 2. -/
def defaultFont : List Byte := defaultGlyphsLow ++ defaultGlyphsHigh

/-- What an address reads as while nothing has been written there: the default font at FONT_BASE .. FONT_BASE+79, and 0
everywhere else (10_state.md R33, 20_memory.md R61). -/
def Memory.initial (a : Nat) : Byte :=
  if fontBase ≤ a then defaultFont.getD (a - fontBase) 0 else 0

/-- The byte at an address (20_memory.md R52, R63). -/
def Memory.read : Memory → Nat → Byte
  | [], a => Memory.initial a
  | (k, b) :: rest, a => if a = k then b else Memory.read rest a

/-- A cell in canonical form: nothing is listed for a byte that equals the reset contents of its address. -/
def Memory.cell (a : Nat) (b : Byte) : Memory := if b = Memory.initial a then [] else [(a, b)]

/-- The memory after byte `b` is written at address `a`, and nothing else (20_memory.md R53). -/
def Memory.write : Memory → Nat → Byte → Memory
  | [], a, b => Memory.cell a b
  | (k, c) :: rest, a, b =>
    if a < k then Memory.cell a b ++ (k, c) :: rest
    else if a = k then Memory.cell a b ++ rest
    else (k, c) :: Memory.write rest a b

/-- The memory after the bytes are written at `a`, `a + 1`, and so on, in ascending order (20_memory.md R57). -/
def Memory.writeBytes : Memory → Nat → List Byte → Memory
  | m, _, [] => m
  | m, a, b :: bs => Memory.writeBytes (Memory.write m a b) (a + 1) bs

/-- The `n` bytes at `a`, `a + 1`, .., in ascending order (20_memory.md R52). -/
def Memory.readBytes (m : Memory) : Nat → Nat → List Byte
  | _, 0 => []
  | a, n + 1 => m.read a :: Memory.readBytes m (a + 1) n

/-- The canonical form of memory: addresses strictly rising and valid, no byte listed that the address reads as anyway. -/
abbrev Memory.wf (m : Memory) : Prop :=
  List.Pairwise (fun c d : Host.Cell => c.1 < d.1) m ∧ ∀ c ∈ m, c.1 ≤ maxAddress ∧ c.2 ≠ Memory.initial c.1

/-- The first invalid address among `a`, `a + 1`, .., `a + n - 1` in ascending order, if there is one: addresses are natural
numbers that never wrap (20_memory.md R51, R52, R59). -/
def firstInvalid : Nat → Nat → Option Nat
  | _, 0 => none
  | a, n + 1 => if a ≤ maxAddress then firstInvalid (a + 1) n else some a

end Sys2Proof.Machine
end

