-- ==== Sys2Proof/Machine/Ops.lean ====
section
/-! DEFINITION. The named operations over the state: registers, pc, stack, memory, the random draw, the fetch, and raising
an error (spec 00_scope.md R12). -/

namespace Sys2Proof.Machine

/-- The outcome of a step of this core. -/
abbrev Outcome := Host.Outcome State Fault Refusal

/-- `raise e`: the ONE way an error is taken. The step ends with the error and answers no state: the state stays the one
before the step, nothing is saved, no mode changes, and control goes to the host, not to a handler (60_exceptions.md R219). -/
def raise (e : Fault) : Outcome := .fault e

/-- The state the host finds after an action that began in `s`: after an error it is `s` itself, pc included, and there is no
return from an error but to act again (60_exceptions.md R219, R220). -/
def settle (s : State) : Outcome → State
  | .next t => t
  | .fault _ => s
  | .refused _ => s

/-- `V[r]` (00_scope.md R11). -/
def readV (s : State) (r : Reg) : Byte := s.v[r]

/-- `V[r] <- b` (00_scope.md R11). No register is hardwired (10_state.md R21). -/
def writeV (s : State) (r : Reg) (b : Byte) : State := { s with v := s.v.set r b }

/-- `I <- a` (10_state.md R23). -/
def setI (s : State) (a : Word) : State := { s with i := a }

/-- `pc <- target` (10_state.md R24). No target is checked (42_control_flow.md R120). -/
def setPc (s : State) (target : Word) : State := { s with pc := target }

/-- `DT <- b` (10_state.md R27). -/
def setDt (s : State) (b : Byte) : State := { s with dt := b }

/-- `ST <- b` (10_state.md R28). -/
def setSt (s : State) (b : Byte) : State := { s with st := b }

/-- `FB <- fb` (10_state.md R29). -/
def setFb (s : State) (fb : Framebuffer) : State := { s with fb := fb }

/-- `K[k] <- down` (10_state.md R30). -/
def setKeyState (s : State) (k : Key) (down : Bool) : State := { s with keys := s.keys.set k down }

/-- `AW <- a` (10_state.md R31). -/
def setAw (s : State) (a : Option Reg) : State := { s with aw := a }

/-- `KP <- k` (10_state.md R32). -/
def setKp (s : State) (k : Option Key) : State := { s with kp := k }

/-- `SP <- n` (10_state.md R25). -/
def setSp (s : State) (n : Fin 16) : State := { s with sp := n }

/-- `S[j] <- a` (10_state.md R26). -/
def setSlot (s : State) (j : Fin 16) (a : Word) : State := { s with stack := s.stack.set j a }

/-- `M <- m` (10_state.md R33). -/
def setMem (s : State) (m : Memory) : State := { s with mem := m }

/-- The counter of draws moves on by one (the model's own, log entry 1). -/
def countDraw (s : State) : State := { s with draws := s.draws + 1 }

/-- The sequential pc update, `pc <- pc + 2` mod 65536 (30_encoding.md R78). -/
def advance (s : State) : State := setPc s (s.pc + 2)

/-- The pc update of a skip: `pc + 4` if the condition holds, else `pc + 2` (30_encoding.md R78, conflict C11). -/
def skipIf (s : State) (condition : Bool) : State := if condition then setPc s (s.pc + 4) else advance s

/-- `MemRead(a, n)` as bytes: the bytes at `a .. a+n-1`, or AddressOutOfRange with the first invalid address
(20_memory.md R52). -/
def memRead (s : State) (a n : Nat) : Except Fault (List Byte) :=
  match firstInvalid a n with
  | some bad => .error (.addressOutOfRange s.pc bad)
  | none => .ok (s.mem.readBytes a n)

/-- The bytes stored at `a`, `a + 1`, ..: every address is checked before any byte is written (20_memory.md R53, R59). -/
def memWrite (s : State) (a : Nat) (bytes : List Byte) : Except Fault State :=
  match firstInvalid a bytes.length with
  | some bad => .error (.addressOutOfRange s.pc bad)
  | none => .ok (setMem s (s.mem.writeBytes a bytes))

/-- CALL's push: SP is incremented, then the slot is written; StackOverflow when SP is already 15 (42_control_flow.md R122,
conflict C1). -/
def push (s : State) (a : Word) : Except Fault State :=
  if h : s.sp.val + 1 < 16 then .ok (setSlot (setSp s ⟨s.sp.val + 1, h⟩) ⟨s.sp.val + 1, h⟩ a)
  else .error (.stackOverflow s.pc)

/-- RET's pop: the slot at SP is read, then SP is decremented, the slot keeping its value; StackUnderflow when SP is 0
(42_control_flow.md R121). -/
def pop (s : State) : Except Fault (State × Word) :=
  if s.sp.val = 0 then .error (.stackUnderflow s.pc)
  else .ok (setSp s ⟨s.sp.val - 1, by omega⟩, s.stack[s.sp])

/-- `draw_random()`: the next byte of the parameter RNG, a free value (60_exceptions.md R228, D19; log entry 1). -/
def drawRandom (s : State) : State × Byte := (countDraw s, Config.randomByte s.draws)

/-- The instruction fetch `MemRead(pc, 2)`, composed big-endian (20_memory.md R54). -/
def fetchWord (s : State) : Except Fault Word :=
  match memRead s s.pc.toNat 2 with
  | .error e => .error e
  | .ok bytes => .ok (wordOfBytes (bytes.getD 0 0) (bytes.getD 1 0))

/-- Fetch and decode: the instruction at pc, or the error of the fetch, or InvalidOpcode, in that order
(30_encoding.md R76, 60_exceptions.md R218). -/
def fetchInstr (s : State) : Except Fault Instr :=
  match fetchWord s with
  | .error e => .error e
  | .ok w =>
    match decodeWord w with
    | some i => .ok i
    | none => .error (.invalidOpcode s.pc w)

/-- The bytes of a word stored at an address, the more significant byte at the lower address (20_memory.md R55). -/
def storeWord (m : Memory) (a : Nat) (w : Word) : Memory := m.writeBytes a [hiByte w, loByte w]

end Sys2Proof.Machine
end

