-- ==== Sys2Proof/Machine/Flags.lean ====
section
/-! DEFINITION. The flag values of the ALU and of DRW, and the order in which a result and its flag are written
(spec 43_alu_load.md R140, R141). -/

namespace Sys2Proof.Machine

/-- A flag as the byte VF receives: 1 or 0 (43_alu_load.md R140). -/
def flagByte (b : Bool) : Byte := if b then 1 else 0

/-- The carry of `a + b`: 1 if the exact sum exceeds 255 (43_alu_load.md R140). -/
def carryFlag (a b : Byte) : Byte := flagByte (decide (a.toNat + b.toNat > 255))

/-- The no-borrow of `a - b`: 1 if `a ≥ b` (43_alu_load.md R140). -/
def noBorrowFlag (a b : Byte) : Byte := flagByte (decide (a.toNat ≥ b.toNat))

/-- The bit shifted out to the right: bit 0 (43_alu_load.md R150). -/
def shiftedOutRight (a : Byte) : Byte := flagByte (a.getLsbD 0)

/-- The bit shifted out to the left: bit 7 (43_alu_load.md R152). -/
def shiftedOutLeft (a : Byte) : Byte := flagByte (a.getLsbD 7)

/-- The result to Vx first and the flag to VF second, so that with x = F the flag stays (43_alu_load.md R141, D11). -/
def writeResultAndFlag (s : State) (x : Reg) (result flag : Byte) : State := writeV (writeV s x result) vf flag

end Sys2Proof.Machine
end

