-- ==== Sys2Proof/Machine/AluLoad.lean ====
section
/-! DEFINITION. The load and ALU family: 6xkk, 7xkk, 8xy0 to 8xyE, Cxkk (spec 43_alu_load.md). Arithmetic on bytes wraps
mod 256 (R140). -/

namespace Sys2Proof.Machine

/-- LD Vx, kk (43_alu_load.md R142). -/
def execLdByte (x : Reg) (kk : Byte) (s : State) : Outcome := .next (advance (writeV s x kk))

/-- ADD Vx, kk: no carry flag (43_alu_load.md R143). -/
def execAddByte (x : Reg) (kk : Byte) (s : State) : Outcome := .next (advance (writeV s x (readV s x + kk)))

/-- LD Vx, Vy (43_alu_load.md R144). -/
def execLdReg (x y : Reg) (s : State) : Outcome := .next (advance (writeV s x (readV s y)))

/-- OR Vx, Vy: VF is not reset (43_alu_load.md R145). -/
def execOr (x y : Reg) (s : State) : Outcome := .next (advance (writeV s x (readV s x ||| readV s y)))

/-- AND Vx, Vy: VF is not reset (43_alu_load.md R146). -/
def execAnd (x y : Reg) (s : State) : Outcome := .next (advance (writeV s x (readV s x &&& readV s y)))

/-- XOR Vx, Vy: VF is not reset (43_alu_load.md R147). -/
def execXor (x y : Reg) (s : State) : Outcome := .next (advance (writeV s x (readV s x ^^^ readV s y)))

/-- ADD Vx, Vy, with the carry to VF (43_alu_load.md R148). -/
def execAddReg (x y : Reg) (s : State) : Outcome :=
  .next (advance (writeResultAndFlag s x (readV s x + readV s y) (carryFlag (readV s x) (readV s y))))

/-- SUB Vx, Vy, with the no-borrow to VF (43_alu_load.md R149). -/
def execSub (x y : Reg) (s : State) : Outcome :=
  .next (advance (writeResultAndFlag s x (readV s x - readV s y) (noBorrowFlag (readV s x) (readV s y))))

/-- SHR Vx: the `y` field is ignored (43_alu_load.md R150). -/
def execShr (x _y : Reg) (s : State) : Outcome :=
  .next (advance (writeResultAndFlag s x (readV s x >>> 1) (shiftedOutRight (readV s x))))

/-- SUBN Vx, Vy: Vy - Vx, with the no-borrow to VF (43_alu_load.md R151). -/
def execSubn (x y : Reg) (s : State) : Outcome :=
  .next (advance (writeResultAndFlag s x (readV s y - readV s x) (noBorrowFlag (readV s y) (readV s x))))

/-- SHL Vx: the `y` field is ignored (43_alu_load.md R152). -/
def execShl (x _y : Reg) (s : State) : Outcome :=
  .next (advance (writeResultAndFlag s x (readV s x <<< 1) (shiftedOutLeft (readV s x))))

/-- RND Vx, kk: a fresh draw AND the mask (43_alu_load.md R153). -/
def execRnd (x : Reg) (kk : Byte) (s : State) : Outcome :=
  .next (advance (writeV (drawRandom s).1 x ((drawRandom s).2 &&& kk)))

end Sys2Proof.Machine
end

