-- ==== Sys2Proof/Machine/Operands.lean ====
section
/-! DEFINITION. The operand forms and the values computed from them: immediates, the V0-relative target, the I-relative
addresses, the register ranges, the key index, the decimal digits (spec 30_encoding.md R72, 44_index_memory.md). -/

namespace Sys2Proof.Machine

/-- `zext_16(nnn)` (30_encoding.md R72). -/
def addrWord (nnn : Addr12) : Word := nnn.setWidth 16

/-- The target of JP V0: `V[0] + nnn`, a natural that fits 16 bits (42_control_flow.md R124). -/
def offsetTarget (s : State) (nnn : Addr12) : Word := BitVec.ofNat 16 ((readV s 0).toNat + nnn.toNat)

/-- The base address of DRW, Fx33, Fx55 and Fx65: I as a natural (20_memory.md R51). -/
def indexAddress (s : State) : Nat := s.i.toNat

/-- `(I + V[x]) mod 65536` (44_index_memory.md R171, D4). -/
def indexPlus (s : State) (x : Reg) : Word := BitVec.ofNat 16 (s.i.toNat + (readV s x).toNat)

/-- The address of the glyph of the low nibble of a byte: `FONT_BASE + 5 * (v & 0x0F)` (44_index_memory.md R172). -/
def glyphAddress (b : Byte) : Word := BitVec.ofNat 16 (fontBase + fontGlyphBytes * (b &&& 0x0F).toNat)

/-- The three decimal digits of a byte, hundreds first (44_index_memory.md R173, D6). -/
def decimalDigits (b : Byte) : List Byte :=
  [BitVec.ofNat 8 (b.toNat / 100), BitVec.ofNat 8 (b.toNat / 10 % 10), BitVec.ofNat 8 (b.toNat % 10)]

/-- `V0, .., Vx`, the last one inclusive (44_index_memory.md R174). -/
def registersUpTo (s : State) (x : Reg) : List Byte := s.v.toList.take (x.val + 1)

/-- The registers after the bytes are loaded into V[k], V[k+1], .. in ascending order (44_index_memory.md R175). -/
def loadRegisters : List Byte → Nat → State → State
  | [], _, s => s
  | b :: bs, k, s => if h : k < 16 then loadRegisters bs (k + 1) (writeV s ⟨k, h⟩ b) else s

/-- The key whose index is in Vx, or InvalidKeyIndex when Vx exceeds 15 (45_timers_keypad.md R193, R194, D9). -/
def keyOperand (s : State) (x : Reg) : Except Fault Key :=
  if h : (readV s x).toNat < 16 then .ok ⟨(readV s x).toNat, h⟩ else .error (.invalidKeyIndex s.pc (readV s x))

/-- `K[k]`: whether the key is down (10_state.md R30). -/
def keyDown (s : State) (k : Key) : Bool := s.keys[k]

end Sys2Proof.Machine
end

