-- ==== Sys2Proof/Machine/ControlFlow.lean ====
section
/-! DEFINITION. The control-flow family: 00EE, 1nnn, 2nnn, Bnnn, 3xkk, 4xkk, 5xy0, 9xy0 (spec 42_control_flow.md). -/

namespace Sys2Proof.Machine

/-- RET (42_control_flow.md R121). -/
def execRet (s : State) : Outcome :=
  match pop s with
  | .error e => raise e
  | .ok (t, target) => .next (setPc t target)

/-- CALL nnn: the address after the call is pushed (42_control_flow.md R122). -/
def execCall (nnn : Addr12) (s : State) : Outcome :=
  match push s (s.pc + 2) with
  | .error e => raise e
  | .ok t => .next (setPc t (addrWord nnn))

/-- JP nnn (42_control_flow.md R123). -/
def execJp (nnn : Addr12) (s : State) : Outcome := .next (setPc s (addrWord nnn))

/-- JP V0, nnn (42_control_flow.md R124). -/
def execJpV0 (nnn : Addr12) (s : State) : Outcome := .next (setPc s (offsetTarget s nnn))

/-- SE Vx, kk (42_control_flow.md R125). -/
def execSeByte (x : Reg) (kk : Byte) (s : State) : Outcome := .next (skipIf s (readV s x == kk))

/-- SNE Vx, kk (42_control_flow.md R126). -/
def execSneByte (x : Reg) (kk : Byte) (s : State) : Outcome := .next (skipIf s (readV s x != kk))

/-- SE Vx, Vy (42_control_flow.md R127). -/
def execSeReg (x y : Reg) (s : State) : Outcome := .next (skipIf s (readV s x == readV s y))

/-- SNE Vx, Vy (42_control_flow.md R128). -/
def execSneReg (x y : Reg) (s : State) : Outcome := .next (skipIf s (readV s x != readV s y))

end Sys2Proof.Machine
end

