-- ==== Sys2Proof/Machine/Display.lean ====
section
/-! DEFINITION. The display family: 00E0 CLS and Dxyn DRW (spec 41_display.md). -/

namespace Sys2Proof.Machine

/-- CLS: every pixel unlit (41_display.md R100). -/
def execCls (s : State) : Outcome := .next (advance (setFb s Framebuffer.clear))

/-- DRW Vx, Vy, n: the coordinates are read first; `n` sprite rows from memory at I are XOR-drawn; VF gets the collision
flag; AddressOutOfRange leaves everything undone (41_display.md R101). -/
def execDrw (x y : Reg) (n : Nat) (s : State) : Outcome :=
  match memRead s (indexAddress s) n with
  | .error e => raise e
  | .ok rows =>
    match drawSprite (readV s x).toNat (readV s y).toNat rows s.fb with
    | .error e => raise e
    | .ok (fb, collided) => .next (advance (writeV (setFb s fb) vf (flagByte collided)))

end Sys2Proof.Machine
end

