-- ==== Sys2Proof/Machine/IndexMemory.lean ====
section
/-! DEFINITION. The index-register and memory family: Annn, Fx1E, Fx29, Fx33, Fx55, Fx65 (spec 44_index_memory.md). -/

namespace Sys2Proof.Machine

/-- LD I, nnn (44_index_memory.md R170). -/
def execLdI (nnn : Addr12) (s : State) : Outcome := .next (advance (setI s (addrWord nnn)))

/-- ADD I, Vx: mod 65536, VF not written (44_index_memory.md R171). -/
def execAddI (x : Reg) (s : State) : Outcome := .next (advance (setI s (indexPlus s x)))

/-- LD F, Vx (44_index_memory.md R172). -/
def execLdF (x : Reg) (s : State) : Outcome := .next (advance (setI s (glyphAddress (readV s x))))

/-- LD B, Vx: the three decimal digits at I, I+1, I+2, or nothing (44_index_memory.md R173). -/
def execLdB (x : Reg) (s : State) : Outcome :=
  match memWrite s (indexAddress s) (decimalDigits (readV s x)) with
  | .error e => raise e
  | .ok t => .next (advance t)

/-- LD [I], Vx: V0..Vx at I..I+x, or nothing; I is kept (44_index_memory.md R174). -/
def execStoreRegs (x : Reg) (s : State) : Outcome :=
  match memWrite s (indexAddress s) (registersUpTo s x) with
  | .error e => raise e
  | .ok t => .next (advance t)

/-- LD Vx, [I]: V0..Vx from I..I+x, or nothing; I is kept (44_index_memory.md R175). -/
def execLoadRegs (x : Reg) (s : State) : Outcome :=
  match memRead s (indexAddress s) (x.val + 1) with
  | .error e => raise e
  | .ok bytes => .next (advance (loadRegisters bytes 0 s))

end Sys2Proof.Machine
end

