-- ==== Sys2Proof/Machine/TimersKeypad.lean ====
section
/-! DEFINITION. The timer and keypad family: Fx07, Fx15, Fx18, Ex9E, ExA1, Fx0A and the wait step (spec
45_timers_keypad.md). -/

namespace Sys2Proof.Machine

/-- LD Vx, DT (45_timers_keypad.md R190). -/
def execLdVxDt (x : Reg) (s : State) : Outcome := .next (advance (writeV s x s.dt))

/-- LD DT, Vx (45_timers_keypad.md R191). -/
def execLdDtVx (x : Reg) (s : State) : Outcome := .next (advance (setDt s (readV s x)))

/-- LD ST, Vx (45_timers_keypad.md R192). -/
def execLdStVx (x : Reg) (s : State) : Outcome := .next (advance (setSt s (readV s x)))

/-- SKP Vx: skip if the key is down (45_timers_keypad.md R193). -/
def execSkp (x : Reg) (s : State) : Outcome :=
  match keyOperand s x with
  | .error e => raise e
  | .ok k => .next (skipIf s (keyDown s k))

/-- SKNP Vx: skip if the key is up (45_timers_keypad.md R194). -/
def execSknp (x : Reg) (s : State) : Outcome :=
  match keyOperand s x with
  | .error e => raise e
  | .ok k => .next (skipIf s (!keyDown s k))

/-- LD Vx, K: the key wait begins; pc keeps the address of this instruction (45_timers_keypad.md R200). -/
def execLdVxK (x : Reg) (s : State) : Outcome := .next (setAw s (some x))

/-- `WaitStep(r)`: no change without a latched press; with one, Vr gets the key's index, AW and KP are cleared and pc moves
past the Fx0A (45_timers_keypad.md R195). It never raises an error. -/
def waitStep (r : Reg) (s : State) : State :=
  match s.kp with
  | none => s
  | some k => advance (setKp (setAw (writeV s r (BitVec.ofNat 8 k.val)) none) none)

end Sys2Proof.Machine
end

