-- ==== Sys2Proof/Machine/Step.lean ====
section
/-! DEFINITION. One call of `step()` (spec 30_encoding.md R76), and an instruction placed where it is fetched. -/

namespace Sys2Proof.Machine

/-- `step()`: under the key wait it is a wait step and fetches nothing; otherwise one instruction is fetched, decoded and
executed, and an error of any of the three ends the step (30_encoding.md R76, 60_exceptions.md R218). -/
def step (s : State) : Host.Outcome State Fault Refusal :=
  match s.aw with
  | some r => .next (waitStep r s)
  | none =>
    match fetchInstr s with
    | .error e => raise e
    | .ok i => exec i s

/-- Where the next fetch of `s` can read a word: at pc, or at the program origin when pc is beyond 0xFFE (log entry 7). -/
def fetchablePc (s : State) : Word := if s.pc.toNat + 1 ≤ maxAddress then s.pc else Config.programOrigin

/-- `s` with the word stored where the next step fetches, big-endian. A key wait would keep the step from fetching, so AW is
cleared, and with it the latch KP, which is set only during a wait (log entry 7). -/
def State.withFetchWord (s : State) (nbits w : Nat) : State :=
  { s with
    mem := storeWord s.mem (fetchablePc s).toNat (BitVec.ofNat 16 (w % 2 ^ nbits))
    pc := fetchablePc s
    aw := none
    kp := none }

end Sys2Proof.Machine
end

