-- ==== Sys2Proof/Machine/HostOps.lean ====
section
/-! DEFINITION. The operations of the host (spec 60_exceptions.md R223-R230, 70_reset_and_hazards.md R250-R253), and the moves
of the whole machine: the core's step and the host's operations, in any order. -/

namespace Sys2Proof.Machine

/-- `MAX_IMAGE_BYTES` (00_scope.md R7, conflict C3). -/
def maxImageBytes : Nat := 3584

/-- `new()` with FONT_TABLE as its argument: every element of the spec's state gets its reset value and the font lies at
FONT_BASE (70_reset_and_hazards.md R250, 20_memory.md R60). The model's own counter of draws goes on, so that no two draws of
one history are forced equal (log entry 6). -/
def new (font : Vector Byte 80) (s : State) : State :=
  { State.reset with mem := State.reset.mem.writeBytes fontBase font.toList, draws := s.draws }

/-- `load(bytes)`: the image is copied to the program origin and nothing else changes; a longer image than fits is
LoadError and nothing is written (70_reset_and_hazards.md R253, D20). -/
def load (bytes : List Byte) (s : State) : Outcome :=
  if bytes.length ≤ maxImageBytes then
    .next (setMem s (s.mem.writeBytes Config.programOrigin.toNat bytes))
  else raise (.loadError bytes.length)

/-- A timer one tick later: decremented if nonzero (60_exceptions.md R223). -/
def tickDown (t : Byte) : Byte := if t = 0 then 0 else t - 1

/-- `tick_timers()`: DT and ST, and nothing else (60_exceptions.md R223). -/
def tickTimers (s : State) : State := setSt (setDt s (tickDown s.dt)) (tickDown s.st)

/-- What a press of key `k` does to the latch: it is latched during a wait, if none is latched yet (60_exceptions.md R226,
45_timers_keypad.md R196). -/
def latchPress (s : State) (k : Key) (down : Bool) : State :=
  if down && s.aw.isSome && s.kp.isNone then setKp s (some k) else s

/-- `set_key(k, down)`; an index above 15 is outside the interface and refused (60_exceptions.md R226, D26). -/
def setKey (k : Nat) (down : Bool) (s : State) : Outcome :=
  if h : k < 16 then .next (latchPress (setKeyState s ⟨k, h⟩ down) ⟨k, h⟩ down)
  else .refused (.keyOutsideInterface k)

/-- `framebuffer_snapshot()`: the grid, read only (60_exceptions.md R227). -/
def framebufferSnapshot (s : State) : Framebuffer := s.fb

/-- The host's per-pixel `Read(x, y)`: it changes nothing; outside the grid it is OutOfRangePixel (41_display.md R104, D33). -/
def hostRead (x y : Nat) (s : State) : Outcome :=
  match s.fb.readPixel x y with
  | .error e => raise e
  | .ok _ => .next s

/-- The actions of the two agents, each atomic, in any total order (60_exceptions.md R229, R230). -/
inductive Action where
  /-- the host constructs a fresh core, with a font of its choice (R250) -/
  | new (font : Vector Byte 80)
  /-- the host loads a program image (R253) -/
  | load (bytes : List Byte)
  /-- the core executes one step (R76) -/
  | step
  /-- the host's 60 Hz tick (R223) -/
  | tickTimers
  /-- the host reports a key (R226) -/
  | setKey (k : Nat) (down : Bool)
  /-- the host reads the framebuffer (R227) -/
  | snapshot
  /-- the host reads one pixel (R104) -/
  | read (x y : Nat)
deriving DecidableEq, Repr

/-- What an action does to the state, or the error it returns (60_exceptions.md R230). -/
def perform (a : Action) (s : State) : Outcome :=
  match a with
  | .new font => .next (new font s)
  | .load bytes => load bytes s
  | .step => step s
  | .tickTimers => .next (tickTimers s)
  | .setKey k down => setKey k down s
  | .snapshot => .next s
  | .read x y => hostRead x y s

/-- What an action returns to the host when it succeeds (60_exceptions.md R230). -/
inductive Reply where
  /-- nothing but success -/
  | ok
  /-- `load`: the number of bytes loaded -/
  | loaded (length : Nat)
  /-- `framebuffer_snapshot`: the grid -/
  | grid (fb : Framebuffer)
  /-- `Read`: the pixel -/
  | pixel (lit : Bool)
deriving DecidableEq, Repr

/-- What the host gets back from a pixel read inside the grid (41_display.md R104). -/
def pixelReply (fb : Framebuffer) (x y : Nat) : Reply :=
  match fb.readPixel x y with
  | .ok lit => .pixel lit
  | .error _ => .ok

/-- The value an action that begins in `s` returns when it succeeds (60_exceptions.md R230). -/
def successReply (a : Action) (s : State) : Reply :=
  match a with
  | .new _ => .ok
  | .load bytes => .loaded bytes.length
  | .step => .ok
  | .tickTimers => .ok
  | .setKey _ _ => .ok
  | .snapshot => .grid (framebufferSnapshot s)
  | .read x y => pixelReply s.fb x y

/-- The value an action returns to the host; none when it ends in an error or is refused, which its outcome names
(60_exceptions.md R230). -/
def reply (a : Action) (s : State) : Option Reply :=
  match perform a s with
  | .next _ => some (successReply a s)
  | .fault _ => none
  | .refused _ => none

/-- The numeric code of an error (60_exceptions.md R210, D24). -/
def Fault.code : Fault → Nat
  | .invalidOpcode _ _ => 1
  | .stackOverflow _ => 2
  | .stackUnderflow _ => 3
  | .addressOutOfRange _ _ => 4
  | .invalidKeyIndex _ _ => 5
  | .outOfRangePixel _ _ => 6
  | .loadError _ => 7

end Sys2Proof.Machine
end

