-- ==== Sys2Proof/Safety.lean ====
section
/-! DEFINITION. What claims about this machine are stated in: what an instruction may write and its frame (spec
10_state.md R37), the errors a step can raise (60_exceptions.md R218), the invariant of reachable states (10_state.md R36),
and reachability by the actions of both agents (60_exceptions.md R229). -/

namespace Sys2Proof.Machine

/-- What an instruction may write besides pc: a row of the table in 10_state.md R37. -/
structure Writes where
  /-- the registers written -/
  regs : List Reg := []
  /-- whether I is written -/
  index : Bool := false
  /-- whether SP is written -/
  sp : Bool := false
  /-- the stack slots written -/
  slots : List (Fin 16) := []
  /-- whether DT is written -/
  dt : Bool := false
  /-- whether ST is written -/
  st : Bool := false
  /-- whether FB is written -/
  fb : Bool := false
  /-- whether AW is written -/
  aw : Bool := false
  /-- whether KP is written -/
  kp : Bool := false
  /-- whether a random byte is drawn -/
  draws : Bool := false
  /-- the addresses of the bytes stored to -/
  bytes : List Nat := []
deriving DecidableEq, Repr

/-- From `s` to `t` everything but pc is unchanged outside what `w` lists; K is written by no instruction
(10_state.md R30, R37). -/
structure Frame (w : Writes) (s t : State) : Prop where
  /-- every other register is unchanged -/
  regs : ∀ r, r ∉ w.regs → readV t r = readV s r
  /-- I is unchanged unless listed -/
  index : w.index = false → t.i = s.i
  /-- SP is unchanged unless listed -/
  sp : w.sp = false → t.sp = s.sp
  /-- every other stack slot is unchanged -/
  slots : ∀ j : Fin 16, j ∉ w.slots → t.stack[j] = s.stack[j]
  /-- DT is unchanged unless listed -/
  dt : w.dt = false → t.dt = s.dt
  /-- ST is unchanged unless listed -/
  st : w.st = false → t.st = s.st
  /-- every pixel is unchanged unless FB is listed -/
  fb : w.fb = false → t.fb = s.fb
  /-- every key state is unchanged -/
  keys : t.keys = s.keys
  /-- AW is unchanged unless listed -/
  aw : w.aw = false → t.aw = s.aw
  /-- KP is unchanged unless listed -/
  kp : w.kp = false → t.kp = s.kp
  /-- no random byte is drawn unless listed -/
  draws : w.draws = false → t.draws = s.draws
  /-- every byte of memory outside the stored ones reads as before -/
  bytes : ∀ a, a ∉ w.bytes → t.mem.read a = s.mem.read a

/-- The addresses `a`, `a + 1`, .., `a + n - 1`. -/
def addressRange (a n : Nat) : List Nat := (List.range n).map (a + ·)

/-- The registers V0, .., Vx, the last one inclusive. -/
def regsUpTo (x : Reg) : List Reg := (List.finRange 16).filter fun r => decide (r ≤ x)

/-- The slot a CALL writes: the one after SP (42_control_flow.md R122). -/
def nextSlots (s : State) : List (Fin 16) := (List.finRange 16).filter fun j => decide (j.val = s.sp.val + 1)

/-- The "writes" column of the table in 10_state.md R37, with the addresses and slots in the state before the instruction. -/
def writesOf (s : State) : Instr → Writes
  | .cls => { fb := true }
  | .ret => { sp := true }
  | .jp _ => {}
  | .call _ => { sp := true, slots := nextSlots s }
  | .seByte _ _ => {}
  | .sneByte _ _ => {}
  | .seReg _ _ => {}
  | .ldByte x _ => { regs := [x] }
  | .addByte x _ => { regs := [x] }
  | .ldReg x _ => { regs := [x] }
  | .or x _ => { regs := [x] }
  | .and x _ => { regs := [x] }
  | .xor x _ => { regs := [x] }
  | .addReg x _ => { regs := [x, vf] }
  | .sub x _ => { regs := [x, vf] }
  | .shr x _ => { regs := [x, vf] }
  | .subn x _ => { regs := [x, vf] }
  | .shl x _ => { regs := [x, vf] }
  | .sneReg _ _ => {}
  | .ldI _ => { index := true }
  | .jpV0 _ => {}
  | .rnd x _ => { regs := [x], draws := true }
  | .drw _ _ _ => { regs := [vf], fb := true }
  | .skp _ => {}
  | .sknp _ => {}
  | .ldVxDt x => { regs := [x] }
  | .ldVxK _ => { aw := true }
  | .ldDtVx _ => { dt := true }
  | .ldStVx _ => { st := true }
  | .addI _ => { index := true }
  | .ldF _ => { index := true }
  | .ldB _ => { bytes := addressRange (indexAddress s) 3 }
  | .storeRegs x => { bytes := addressRange (indexAddress s) (x.val + 1) }
  | .loadRegs x => { regs := regsUpTo x }

/-- `i` COMPLETES in `s`: exec answers a next state `t`, with pc as given, nothing written outside `w`, and `post t`. -/
def Completes (i : Instr) (s : State) (w : Writes) (pc : Word) (post : State → Prop) : Prop :=
  ∃ t, exec i s = .next t ∧ t.pc = pc ∧ Frame w s t ∧ post t

/-- The error of an access to `n` bytes at `a`: at the first invalid address, which is `max(a, 0x1000)`
(20_memory.md R52, R59; 41_display.md R101; 44_index_memory.md R173). -/
def accessError (pc : Word) (a n : Nat) : Option Fault :=
  if n = 0 ∨ a + n ≤ 0x1000 then none else some (.addressOutOfRange pc (max a 0x1000))

/-- The error of a key index above 15 (45_timers_keypad.md R193). -/
def keyError (s : State) (x : Reg) : Option Fault :=
  if (readV s x).toNat ≤ 15 then none else some (.invalidKeyIndex s.pc (readV s x))

/-- The one kind of error each instruction can raise, and when (60_exceptions.md R218, item 4). -/
def ownError (s : State) : Instr → Option Fault
  | .cls => none
  | .ret => if s.sp.val = 0 then some (.stackUnderflow s.pc) else none
  | .jp _ => none
  | .call _ => if s.sp.val = 15 then some (.stackOverflow s.pc) else none
  | .seByte _ _ => none
  | .sneByte _ _ => none
  | .seReg _ _ => none
  | .ldByte _ _ => none
  | .addByte _ _ => none
  | .ldReg _ _ => none
  | .or _ _ => none
  | .and _ _ => none
  | .xor _ _ => none
  | .addReg _ _ => none
  | .sub _ _ => none
  | .shr _ _ => none
  | .subn _ _ => none
  | .shl _ _ => none
  | .sneReg _ _ => none
  | .ldI _ => none
  | .jpV0 _ => none
  | .rnd _ _ => none
  | .drw _ _ n => accessError s.pc s.i.toNat n
  | .skp x => keyError s x
  | .sknp x => keyError s x
  | .ldVxDt _ => none
  | .ldVxK _ => none
  | .ldDtVx _ => none
  | .ldStVx _ => none
  | .addI _ => none
  | .ldF _ => none
  | .ldB _ => accessError s.pc s.i.toNat 3
  | .storeRegs x => accessError s.pc s.i.toNat (x.val + 1)
  | .loadRegs x => accessError s.pc s.i.toNat (x.val + 1)

/-- The word the two bytes at pc make, big-endian: `(M[pc] << 8) | M[pc+1]` (20_memory.md R54). -/
def wordAtPc (s : State) : Word :=
  BitVec.ofNat 16 (256 * (s.mem.read s.pc.toNat).toNat + (s.mem.read (s.pc.toNat + 1)).toNat)

/-- The error of one step, its checks in the order of 60_exceptions.md R218: none under the key wait; the fetch; the decode;
the instruction's own check. -/
def stepError (s : State) : Option Fault :=
  if s.aw.isSome then none
  else if s.pc.toNat > 0xFFE then some (.addressOutOfRange s.pc (max s.pc.toNat 0x1000))
  else
    match decodeWord (wordAtPc s) with
    | none => some (.invalidOpcode s.pc (wordAtPc s))
    | some i => ownError s i

/-- Pixel (px, py) is one that the sprite of `n` rows at memory address `base`, drawn at (cx, cy), toggles: some set bit
`7 - b` of some row `r` falls on it, with wrap-around (41_display.md R101). -/
def SpriteCovers (m : Memory) (base n cx cy : Nat) (px : Fin 64) (py : Fin 32) : Prop :=
  ∃ r b, r < n ∧ b < 8 ∧ (m.read (base + r)).getLsbD (7 - b) = true ∧
    px.val = (cx + b) % 64 ∧ py.val = (cy + r) % 32

/-- The host reports several keys, one after the other (60_exceptions.md R226). -/
def reportKeys : List (Key × Bool) → State → State
  | [], s => s
  | (k, down) :: rest, s => reportKeys rest (settle s (setKey k.val down s))

/-- The key of the first press in a list of reports. -/
def firstPress (reports : List (Key × Bool)) : Option Key := (reports.find? fun e => e.2).map fun e => e.1

/-- Whether a host action leaves a pending key wait pending: all do but a press and the construction of a fresh core
(45_timers_keypad.md R196, 70_reset_and_hazards.md R252). -/
def keepsWaiting : Action → Bool
  | .new _ => false
  | .load _ => true
  | .step => true
  | .tickTimers => true
  | .setKey _ down => !down
  | .snapshot => true
  | .read _ _ => true

/-- The error of an action: the step's first failing check, LoadError for an image that does not fit, OutOfRangePixel for a
pixel read outside the grid; the other host operations raise none (60_exceptions.md R210, R216, R217, R230). -/
def actionError (a : Action) (s : State) : Option Fault :=
  match a with
  | .new _ => none
  | .load bytes => if bytes.length ≤ 3584 then none else some (.loadError bytes.length)
  | .step => stepError s
  | .tickTimers => none
  | .setKey _ _ => none
  | .snapshot => none
  | .read x y => if x < 64 ∧ y < 32 then none else some (.outOfRangePixel x y)

/-- Whether an action is a call outside the interface: `set_key` with an index above 15 (60_exceptions.md R226, D26). -/
def outsideInterface : Action → Bool
  | .new _ => false
  | .load _ => false
  | .step => false
  | .tickTimers => false
  | .setKey k _ => decide (15 < k)
  | .snapshot => false
  | .read _ _ => false

/-- The state the host finds after actions one after the other, one that ends in an error leaving the state as it was
(`settle`; 60_exceptions.md R219, R229). -/
def after : List Action → State → State
  | [], s => s
  | a :: rest, s => after rest (settle s (perform a s))

/-- Whether an action is a `load`. -/
def isLoad : Action → Bool
  | .new _ => false
  | .load _ => true
  | .step => false
  | .tickTimers => false
  | .setKey _ _ => false
  | .snapshot => false
  | .read _ _ => false

/-- Whether an action is a `load` or a `new`, the two that end the repetition of an error (60_exceptions.md R220). -/
def isLoadOrNew : Action → Bool
  | .new _ => true
  | .load _ => true
  | .step => false
  | .tickTimers => false
  | .setKey _ _ => false
  | .snapshot => false
  | .read _ _ => false

/-- The default FONT_TABLE as R60 prints it: one row for each digit 0 to F, its bytes in the order of the sprite rows
(20_memory.md R60). PRESUMED, log entry 2. Written out here a second time, so that a claim can hold the machine's to it. -/
def fontTable : List (List Byte) :=
  [[0xF0, 0x90, 0x90, 0x90, 0xF0], [0x20, 0x60, 0x20, 0x20, 0x70],
   [0xF0, 0x10, 0xF0, 0x80, 0xF0], [0xF0, 0x10, 0xF0, 0x10, 0xF0],
   [0x90, 0x90, 0xF0, 0x10, 0x10], [0xF0, 0x80, 0xF0, 0x10, 0xF0],
   [0xF0, 0x80, 0xF0, 0x90, 0xF0], [0xF0, 0x10, 0x20, 0x40, 0x40]] ++
  [[0xF0, 0x90, 0xF0, 0x90, 0xF0], [0xF0, 0x90, 0xF0, 0x10, 0xF0],
   [0xF0, 0x90, 0xF0, 0x90, 0x90], [0xE0, 0x90, 0xE0, 0x90, 0xE0],
   [0xF0, 0x80, 0x80, 0x80, 0xF0], [0xE0, 0x90, 0x90, 0x90, 0xE0],
   [0xF0, 0x80, 0xF0, 0x80, 0xF0], [0xF0, 0x80, 0xF0, 0x80, 0x80]]

/-- The byte of row `row` of the glyph of digit `d` in the default FONT_TABLE. -/
def glyphByte (d : Fin 16) (row : Fin 5) : Byte := (fontTable.getD d.val []).getD row.val 0

/-- An outcome with ST forgotten: what is left when no one may look at the sound timer. -/
def forgetSt : Outcome → Outcome
  | .next t => .next (setSt t 0)
  | .fault e => .fault e
  | .refused r => .refused r

/-- The invariant of every reachable state: what 10_state.md R36 lists, and three clauses that the MODEL adds to R36. The
canonical form of memory is the model's representation (DESIGN CHOICE, log entry 9); the two ranges of pc are DEDUCED from
30_encoding.md R78, 42_control_flow.md R124, 45_timers_keypad.md R195 and 20_memory.md R54 (log entry 14). -/
structure Inv (s : State) : Prop where
  /-- memory is in canonical form (the model's; log entry 9) -/
  memory : s.mem.wf
  /-- a press is latched only during a wait (R36, R32) -/
  latch : s.kp ≠ none → s.aw ≠ none
  /-- slot 0 is never written (R36, R26) -/
  slotZero : s.stack[0] = 0
  /-- every held return address is at most 0x1000 (R36) -/
  returns : ∀ j : Fin 16, 1 ≤ j.val → j.val ≤ s.sp.val → s.stack[j].toNat ≤ 0x1000
  /-- no transfer, skip or advance leaves pc beyond 0x10FE (the model's, from R78 and R124; log entry 14) -/
  pcRange : s.pc.toNat ≤ 0x10FE
  /-- during a wait pc holds the address of the Fx0A, which was fetched (the model's, from R195 and R54; log entry 14) -/
  waitPc : s.aw ≠ none → s.pc.toNat ≤ 0xFFE

/-- The states that the actions of the two agents lead to from reset, in any order and number (60_exceptions.md R229). An
action that ends in an error ends the run (R220, D17). -/
inductive Reachable : State → Prop where
  /-- the state after reset -/
  | reset : Reachable State.reset
  /-- one more action -/
  | act (a : Action) (s t : State) (before : Reachable s) (done : perform a s = .next t) : Reachable t

end Sys2Proof.Machine
end

