-- ==== Sys2Proof/Certificates/Slice0/Obligations.lean ====
section
/-! DEFINITION. What is claimed of the machine. Each statement's docstring names the rule of spec/ it formalises; `Completes`
says that exec answers a next state with the given pc, nothing written outside the given row, and what that state holds. -/

open Sys2Proof Sys2Proof.Machine

/-! ## Encoding -/

/-- Decoding the encoded word of a well-formed instruction gives it back, for every value of every operand (30_encoding.md R71,
R73). -/
def Obligations.EncodedInstructionDecodesToItself : Prop :=
  ∀ i : Instr, i.WellFormed = true →
    decodeWord (encode i) = some i ∧
    ∀ rest, decodeBytes (hiByte (encode i) :: loByte (encode i) :: rest) = .instr i rest

/-- Each valid word has one meaning: what it decodes to is well formed and encodes to that word (30_encoding.md R73, R77). -/
def Obligations.DecodedWordEncodesToItself : Prop :=
  ∀ (w : Word) (i : Instr), decodeWord w = some i → i.WellFormed = true ∧ encode i = w

/-- At most one pattern of the opcode map matches a word, and a word is the instruction whose pattern it matches
(30_encoding.md R73). -/
def Obligations.OnePatternAtMostMatchesAWord : Prop :=
  (∀ w : Word, ∀ r ∈ opcodeTable, ∀ q ∈ opcodeTable, w &&& r.mask = r.value → w &&& q.mask = q.value →
    r.mask = q.mask ∧ r.value = q.value) ∧
  (∀ (w : Word) (i : Instr), decodeWord w = some i ↔ ∃ r ∈ opcodeTable, w &&& r.mask = r.value ∧ r.build w = i)

/-- The invalid words are exactly those of the table of 30_encoding.md R74. -/
def Obligations.InvalidWordsAreExactlyThese : Prop :=
  ∀ w : Word, decodeWord w = none ↔
    (fieldOp w = 0x0 ∧ w ≠ 0x00E0 ∧ w ≠ 0x00EE) ∨
    (fieldOp w = 0x5 ∧ fieldN w ≠ 0) ∨
    (fieldOp w = 0x8 ∧ fieldN w ∈ [0x8, 0x9, 0xA, 0xB, 0xC, 0xD, 0xF]) ∨
    (fieldOp w = 0x9 ∧ fieldN w ≠ 0) ∨
    (fieldOp w = 0xE ∧ fieldKK w ∉ [0x9E, 0xA1]) ∨
    (fieldOp w = 0xF ∧ fieldKK w ∉ [0x07, 0x0A, 0x15, 0x18, 0x1E, 0x29, 0x33, 0x55, 0x65])

/-- Words written out from the patterns, one or more of each family (30_encoding.md R73; 95_test_vectors.md). -/
def Obligations.SampleWordsDecodeAsWritten : Prop :=
  decodeWord 0xD235 = some (.drw 2 3 5) ∧ decodeWord 0x00E0 = some .cls ∧
  decodeWord 0x2ABC = some (.call 0xABC) ∧ decodeWord 0x4311 = some (.sneByte 3 0x11) ∧
  decodeWord 0x6A7B = some (.ldByte 0xA 0x7B) ∧ decodeWord 0x81F5 = some (.sub 1 0xF) ∧
  decodeWord 0xA123 = some (.ldI 0x123) ∧ decodeWord 0xF533 = some (.ldB 5) ∧
  decodeWord 0xE0A1 = some (.sknp 0) ∧ decodeWord 0xF30A = some (.ldVxK 3) ∧
  decodeWord 0x0001 = none ∧ decodeWord 0x5121 = none

/-! ## The step, errors and memory accesses -/

/-- One step: under the key wait it is a wait step and fetches nothing; else the word at pc, big-endian, is fetched, decoded and
executed, and an error of the fetch or the decode ends the step with the state unchanged (30_encoding.md R76, 20_memory.md R54). -/
def Obligations.StepFetchesDecodesAndExecutes : Prop :=
  ∀ s : State,
    (∀ r, s.aw = some r → step s = .next (waitStep r s)) ∧
    (s.aw = none → 0xFFF < s.pc.toNat → step s = .fault (.addressOutOfRange s.pc s.pc.toNat)) ∧
    (s.aw = none → s.pc.toNat = 0xFFF → step s = .fault (.addressOutOfRange s.pc 0x1000)) ∧
    (s.aw = none → s.pc.toNat ≤ 0xFFE → decodeWord (wordAtPc s) = none →
      step s = .fault (.invalidOpcode s.pc (wordAtPc s))) ∧
    (s.aw = none → s.pc.toNat ≤ 0xFFE → ∀ i, decodeWord (wordAtPc s) = some i → step s = exec i s) ∧
    (∀ e, step s = .fault e → settle s (step s) = s)

/-- A step raises an error exactly when one of its checks fails, the first failing one in the order wait, fetch, decode, the
instruction's own check; otherwise it answers a next state (60_exceptions.md R218). -/
def Obligations.StepReportsTheFirstFailingCheck : Prop :=
  ∀ s : State,
    (∀ e, step s = .fault e ↔ stepError s = some e) ∧
    (stepError s = none → ∃ t, step s = .next t)

/-- Every instruction of the map either raises its one own error, exactly when its rule says, or completes; none is refused
(60_exceptions.md R218, item 4; R222). -/
def Obligations.InstructionCompletesOrRaisesItsOwnError : Prop :=
  ∀ (i : Instr) (s : State),
    (∀ e, ownError s i = some e → exec i s = .fault e) ∧
    (ownError s i = none → ∃ t, exec i s = .next t)

/-- Every action of the core and the host ends in an error exactly when `actionError` gives it, and otherwise completes unless
the call is outside the interface (60_exceptions.md R210, R216, R217, R226). After a step's error the state is the one before
the step, and until a `load` or a `new` neither further steps nor host calls change more of it than timers and key states, and
every step ends in the same error (R219, R220). That the host finds the state before (`settle`, in `after`) is the model's
reading of R219, DEDUCED, log entry 4. -/
def Obligations.ActionErrorsAreExactlyTheseAndRepeat : Prop :=
  (∀ (a : Action) (s : State),
    (∀ e, perform a s = .fault e ↔ actionError a s = some e) ∧
    (actionError a s = none → outsideInterface a = false → ∃ t, perform a s = .next t)) ∧
  (∀ (s : State) (e : Fault) (actions : List Action), step s = .fault e → (∀ a ∈ actions, isLoadOrNew a = false) →
    step (after actions s) = .fault e ∧
    after actions s =
      { s with dt := (after actions s).dt, st := (after actions s).st, keys := (after actions s).keys })

/-- No step raises OutOfRangePixel, whatever the registers hold: DRW wraps its coordinates (60_exceptions.md R216). Only the
host's direct pixel read raises it. -/
def Obligations.OnlyTheHostReadRaisesOutOfRangePixel : Prop :=
  (∀ (s : State) (x y : Nat), step s ≠ .fault (.outOfRangePixel x y)) ∧
  (∀ (a : Action) (s : State) (x y : Nat), perform a s = .fault (.outOfRangePixel x y) →
    a = .read x y ∧ (64 ≤ x ∨ 32 ≤ y))

/-- MemRead answers the bytes in ascending order, or raises AddressOutOfRange with the first invalid address in that order
(20_memory.md R52). -/
def Obligations.ReadAnswersBytesOrTheFirstInvalidAddress : Prop :=
  ∀ (s : State) (a n : Nat),
    ((∀ k, k < n → a + k ≤ 0xFFF) → ∃ bytes, memRead s a n = .ok bytes ∧ bytes.length = n ∧
      ∀ k (h : k < bytes.length), bytes[k] = s.mem.read (a + k)) ∧
    (∀ k, k < n → 0xFFF < a + k → (∀ j, j < k → a + j ≤ 0xFFF) →
      memRead s a n = .error (.addressOutOfRange s.pc (a + k)))

/-- Storing bytes puts each one at its address and writes nothing else, or, when an address is invalid, raises
AddressOutOfRange with the first invalid one and answers no state (20_memory.md R53 for one byte, R59 for several). That the
memory is and stays in canonical form is about the model's own representation (DESIGN CHOICE, log entry 9). -/
def Obligations.StoreWritesAllBytesOrNone : Prop :=
  ∀ (s : State) (a : Nat) (bytes : List Byte), s.mem.wf →
    ((∀ k, k < bytes.length → a + k ≤ 0xFFF) → ∃ t, memWrite s a bytes = .ok t ∧
      t = { s with mem := t.mem } ∧ t.mem.wf ∧
      (∀ k (h : k < bytes.length), t.mem.read (a + k) = bytes[k]) ∧
      (∀ c, c < a ∨ a + bytes.length ≤ c → t.mem.read c = s.mem.read c)) ∧
    (∀ k, k < bytes.length → 0xFFF < a + k → (∀ j, j < k → a + j ≤ 0xFFF) →
      memWrite s a bytes = .error (.addressOutOfRange s.pc (a + k)))

/-- A read of an address returns the most recent write to it, and its reset contents if nothing was written there
(20_memory.md R63): the glyph bytes of R60's default table below 0x050 (PRESUMED, log entry 2), 0 from there on (R61). The
canonical form of the memory written to is the model's (log entry 9). -/
def Obligations.ReadReturnsTheMostRecentWrite : Prop :=
  (∀ (m : Memory) (a : Nat) (b : Byte) (c : Nat), m.wf →
    (m.write a b).read c = if c = a then b else m.read c) ∧
  (∀ (d : Fin 16) (row : Fin 5), State.reset.mem.read (5 * d.val + row.val) = glyphByte d row) ∧
  (∀ a, 0x050 ≤ a → a ≤ 0xFFF → State.reset.mem.read a = 0)

/-- The canonical form makes memory extensional: two canonical memories that read alike are the same data (the model's own
form, log entry 9). -/
def Obligations.MemoriesThatReadAlikeAreEqual : Prop :=
  ∀ m m' : Memory, m.wf → m'.wf → (∀ a, a ≤ 0xFFF → m.read a = m'.read a) → m = m'

/-! ## Display -/

/-- CLS: every pixel unlit, nothing else but pc (41_display.md R100). -/
def Obligations.ClsUnlightsEveryPixel : Prop :=
  ∀ s : State, Completes .cls s { fb := true } (s.pc + 2) fun t => ∀ px py, t.fb.pixel px py = false

/-- DRW: exactly the pixels a set sprite bit falls on, with wrap-around, are flipped; VF is 1 if one of them was lit, else 0;
with n = 0 nothing is read or checked; a sprite beyond 0xFFF raises AddressOutOfRange at max(I, 0x1000) (41_display.md R101). -/
def Obligations.DrwFlipsExactlyTheSpritePixels : Prop :=
  ∀ (s : State) (x y : Reg) (n : Nat), (Instr.drw x y n).WellFormed = true →
    (n = 0 ∨ s.i.toNat + n - 1 ≤ 0xFFF →
      Completes (.drw x y n) s { regs := [vf], fb := true } (s.pc + 2) fun t =>
        (∀ px py,
          (SpriteCovers s.mem s.i.toNat n (readV s x).toNat (readV s y).toNat px py →
            t.fb.pixel px py = !s.fb.pixel px py) ∧
          (¬ SpriteCovers s.mem s.i.toNat n (readV s x).toNat (readV s y).toNat px py →
            t.fb.pixel px py = s.fb.pixel px py)) ∧
        ((∃ px py, SpriteCovers s.mem s.i.toNat n (readV s x).toNat (readV s y).toNat px py ∧
            s.fb.pixel px py = true) → readV t vf = 1) ∧
        ((¬ ∃ px py, SpriteCovers s.mem s.i.toNat n (readV s x).toNat (readV s y).toNat px py ∧
            s.fb.pixel px py = true) → readV t vf = 0)) ∧
    (0 < n → 0xFFF < s.i.toNat + n - 1 →
      exec (.drw x y n) s = .fault (.addressOutOfRange s.pc (max s.i.toNat 0x1000)))

/-- Drawing the same sprite twice at the same place restores the framebuffer (41_display.md R101: XOR). The coordinate
registers are not VF, which the first draw overwrites. -/
def Obligations.DrawingTwiceRestoresTheFramebuffer : Prop :=
  ∀ (s : State) (x y : Reg) (n : Nat), (Instr.drw x y n).WellFormed = true → x ≠ vf → y ≠ vf →
    (n = 0 ∨ s.i.toNat + n - 1 ≤ 0xFFF) →
    ∃ t u, exec (.drw x y n) s = .next t ∧ exec (.drw x y n) t = .next u ∧ u.fb = s.fb

/-- Toggle flips one pixel and returns whether it was lit; outside the grid it raises OutOfRangePixel (41_display.md R103). -/
def Obligations.ToggleFlipsOnePixel : Prop :=
  ∀ (fb : Framebuffer) (x y : Nat),
    (64 ≤ x ∨ 32 ≤ y → fb.toggle x y = .error (.outOfRangePixel x y)) ∧
    (∀ (hx : x < 64) (hy : y < 32), ∃ fb', fb.toggle x y = .ok (fb', fb.pixel ⟨x, hx⟩ ⟨y, hy⟩) ∧
      ∀ px py, fb'.pixel px py = if px.val = x ∧ py.val = y then !fb.pixel px py else fb.pixel px py)

/-- The host's pixel read returns the pixel, and outside the grid raises OutOfRangePixel (41_display.md R104); the snapshot
returns the whole grid (60_exceptions.md R227). Neither changes anything, and each pixel read is the snapshot's pixel. -/
def Obligations.ReadAndSnapshotReturnPixelsAndChangeNothing : Prop :=
  (∀ (s : State) (x y : Nat),
    (64 ≤ x ∨ 32 ≤ y → perform (.read x y) s = .fault (.outOfRangePixel x y) ∧ reply (.read x y) s = none) ∧
    (∀ (hx : x < 64) (hy : y < 32), perform (.read x y) s = .next s ∧
      reply (.read x y) s = some (.pixel (s.fb.pixel ⟨x, hx⟩ ⟨y, hy⟩)))) ∧
  (∀ s : State, perform .snapshot s = .next s ∧ reply .snapshot s = some (.grid s.fb))

/-! ## Control flow -/

/-- RET: pc gets the slot at SP, SP goes down by one, the slot is not cleared; StackUnderflow at SP = 0 (42_control_flow.md
R121). -/
def Obligations.RetPopsTheReturnAddress : Prop :=
  ∀ s : State,
    (s.sp.val = 0 → exec .ret s = .fault (.stackUnderflow s.pc)) ∧
    (0 < s.sp.val → Completes .ret s { sp := true } s.stack[s.sp] fun t => t.sp.val = s.sp.val - 1)

/-- CALL: SP goes up by one, the slot it then names gets pc + 2, pc gets nnn; StackOverflow at SP = 15 (42_control_flow.md
R122). -/
def Obligations.CallPushesTheReturnAddress : Prop :=
  ∀ (s : State) (nnn : Addr12),
    (s.sp.val = 15 → exec (.call nnn) s = .fault (.stackOverflow s.pc)) ∧
    (s.sp.val < 15 → Completes (.call nnn) s { sp := true, slots := nextSlots s } (BitVec.ofNat 16 nnn.toNat) fun t =>
      t.sp.val = s.sp.val + 1 ∧ t.stack[t.sp] = s.pc + 2)

/-- A CALL and a RET executed anywhere after it give back the address after the call and the stack pointer, and touch nothing
else but the slot (42_control_flow.md R121, R122; the source's round trip, vector W6). -/
def Obligations.RetUndoesCall : Prop :=
  ∀ (s : State) (nnn : Addr12), s.sp.val < 15 → ∃ t, exec (.call nnn) s = .next t ∧
    ∀ elsewhere : Word, ∃ u, exec .ret (setPc t elsewhere) = .next u ∧ u.pc = s.pc + 2 ∧
      Frame { slots := nextSlots s } s u

/-- JP: pc gets nnn, and nothing else changes (42_control_flow.md R123). -/
def Obligations.JpSetsPc : Prop :=
  ∀ (s : State) (nnn : Addr12), Completes (.jp nnn) s {} (BitVec.ofNat 16 nnn.toNat) fun _ => True

/-- A jump to its own address leaves the whole state unchanged (42_control_flow.md R123, corner cases). -/
def Obligations.SelfJumpChangesNothing : Prop :=
  ∀ (s : State) (nnn : Addr12), s.aw = none → s.pc.toNat ≤ 0xFFE → s.pc.toNat = nnn.toNat →
    wordAtPc s = encode (.jp nnn) → step s = .next s

/-- JP V0: pc gets V0 + nnn as a natural, which never wraps (42_control_flow.md R124). -/
def Obligations.JpV0AddsV0WithoutWrap : Prop :=
  ∀ (s : State) (nnn : Addr12),
    Completes (.jpV0 nnn) s {} (BitVec.ofNat 16 ((readV s 0).toNat + nnn.toNat)) fun t =>
      t.pc.toNat = (readV s 0).toNat + nnn.toNat

/-- SE Vx, kk and SNE Vx, kk: pc + 4 if Vx is, or is not, kk; else pc + 2; nothing else changes (42_control_flow.md R125,
R126). -/
def Obligations.ByteSkipsCompareVxWithKk : Prop :=
  ∀ (s : State) (x : Reg) (kk : Byte),
    Completes (.seByte x kk) s {} (if readV s x = kk then s.pc + 4 else s.pc + 2) (fun _ => True) ∧
    Completes (.sneByte x kk) s {} (if readV s x ≠ kk then s.pc + 4 else s.pc + 2) (fun _ => True)

/-- SE Vx, Vy and SNE Vx, Vy: pc + 4 if the registers are, or are not, equal; else pc + 2; nothing else changes
(42_control_flow.md R127, R128). -/
def Obligations.RegisterSkipsCompareVxWithVy : Prop :=
  ∀ (s : State) (x y : Reg),
    Completes (.seReg x y) s {} (if readV s x = readV s y then s.pc + 4 else s.pc + 2) (fun _ => True) ∧
    Completes (.sneReg x y) s {} (if readV s x ≠ readV s y then s.pc + 4 else s.pc + 2) (fun _ => True)

/-! ## Loads and ALU -/

/-- LD Vx, kk (43_alu_load.md R142). -/
def Obligations.LdByteLoadsKk : Prop :=
  ∀ (s : State) (x : Reg) (kk : Byte), Completes (.ldByte x kk) s { regs := [x] } (s.pc + 2) fun t => readV t x = kk

/-- ADD Vx, kk: mod 256, and no register but Vx is written, so VF keeps its value (43_alu_load.md R143). -/
def Obligations.AddByteWrapsWithoutCarry : Prop :=
  ∀ (s : State) (x : Reg) (kk : Byte), Completes (.addByte x kk) s { regs := [x] } (s.pc + 2) fun t =>
    (readV t x).toNat = ((readV s x).toNat + kk.toNat) % 256

/-- LD, OR, AND and XOR Vx, Vy, bit by bit; no register but Vx is written, so VF is not reset (43_alu_load.md R144 to R147). -/
def Obligations.LogicWritesOnlyVx : Prop :=
  ∀ (s : State) (x y : Reg),
    Completes (.ldReg x y) s { regs := [x] } (s.pc + 2) (fun t => readV t x = readV s y) ∧
    Completes (.or x y) s { regs := [x] } (s.pc + 2) (fun t =>
      ∀ k, (readV t x).getLsbD k = ((readV s x).getLsbD k || (readV s y).getLsbD k)) ∧
    Completes (.and x y) s { regs := [x] } (s.pc + 2) (fun t =>
      ∀ k, (readV t x).getLsbD k = ((readV s x).getLsbD k && (readV s y).getLsbD k)) ∧
    Completes (.xor x y) s { regs := [x] } (s.pc + 2) (fun t =>
      ∀ k, (readV t x).getLsbD k = ((readV s x).getLsbD k ^^ (readV s y).getLsbD k))

/-- ADD Vx, Vy: the sum mod 256 to Vx, then the carry to VF, so that with x = F the carry stays (43_alu_load.md R148). -/
def Obligations.AddRegWritesSumAndCarry : Prop :=
  ∀ (s : State) (x y : Reg), Completes (.addReg x y) s { regs := [x, vf] } (s.pc + 2) fun t =>
    (x ≠ vf → (readV t x).toNat = ((readV s x).toNat + (readV s y).toNat) % 256) ∧
    readV t vf = if (readV s x).toNat + (readV s y).toNat > 255 then 1 else 0

/-- SUB and SUBN: the difference mod 256 to Vx, then the no-borrow to VF, so that with x = F the flag stays (43_alu_load.md
R149, R151). -/
def Obligations.SubAndSubnWriteDifferenceAndNoBorrow : Prop :=
  ∀ (s : State) (x y : Reg),
    Completes (.sub x y) s { regs := [x, vf] } (s.pc + 2) (fun t =>
      (x ≠ vf → ((readV t x).toNat : Int) = ((readV s x).toNat - (readV s y).toNat : Int) % 256) ∧
      readV t vf = if (readV s x).toNat ≥ (readV s y).toNat then 1 else 0) ∧
    Completes (.subn x y) s { regs := [x, vf] } (s.pc + 2) (fun t =>
      (x ≠ vf → ((readV t x).toNat : Int) = ((readV s y).toNat - (readV s x).toNat : Int) % 256) ∧
      readV t vf = if (readV s y).toNat ≥ (readV s x).toNat then 1 else 0)

/-- SHR and SHL: Vx shifted by one, whatever y is, then the bit shifted out to VF, so that with x = F that bit stays
(43_alu_load.md R150, R152). -/
def Obligations.ShiftsWriteResultAndShiftedOutBit : Prop :=
  ∀ (s : State) (x y : Reg),
    Completes (.shr x y) s { regs := [x, vf] } (s.pc + 2) (fun t =>
      (x ≠ vf → (readV t x).toNat = (readV s x).toNat / 2) ∧ (readV t vf).toNat = (readV s x).toNat % 2) ∧
    Completes (.shl x y) s { regs := [x, vf] } (s.pc + 2) (fun t =>
      (x ≠ vf → (readV t x).toNat = 2 * (readV s x).toNat % 256) ∧ (readV t vf).toNat = (readV s x).toNat / 128)

/-- RND: a draw AND the mask, whatever the draw is, and the next draw is a fresh one (43_alu_load.md R153). The draw is the free
value of log entry 1, and the counter that makes draws fresh is the model's own. -/
def Obligations.RndMasksAFreshDraw : Prop :=
  ∀ (s : State) (x : Reg) (kk : Byte),
    Completes (.rnd x kk) s { regs := [x], draws := true } (s.pc + 2) fun t =>
      (∀ k, (readV t x).getLsbD k = ((Config.randomByte s.draws).getLsbD k && kk.getLsbD k)) ∧ t.draws = s.draws + 1

/-! ## Index register and memory -/

/-- LD I, nnn and ADD I, Vx: I gets nnn, or I + Vx mod 65536, and VF is not written (44_index_memory.md R170, R171). -/
def Obligations.IndexIsLoadedAndAdded : Prop :=
  (∀ (s : State) (nnn : Addr12), Completes (.ldI nnn) s { index := true } (s.pc + 2) fun t => t.i.toNat = nnn.toNat) ∧
  (∀ (s : State) (x : Reg), Completes (.addI x) s { index := true } (s.pc + 2) fun t =>
    t.i.toNat = (s.i.toNat + (readV s x).toNat) % 65536)

/-- LD F, Vx: I gets the address of the glyph of the low nibble of Vx (44_index_memory.md R172). -/
def Obligations.LdFPointsAtTheGlyph : Prop :=
  ∀ (s : State) (x : Reg), Completes (.ldF x) s { index := true } (s.pc + 2) fun t =>
    t.i.toNat = 5 * ((readV s x).toNat % 16)

/-- LD B, Vx: the hundreds, tens and ones digits at I, I+1, I+2; beyond 0xFFF it raises AddressOutOfRange at max(I, 0x1000)
and writes nothing (44_index_memory.md R173). -/
def Obligations.LdBStoresTheDecimalDigits : Prop :=
  ∀ (s : State) (x : Reg), s.mem.wf →
    (s.i.toNat + 2 ≤ 0xFFF →
      Completes (.ldB x) s { bytes := addressRange s.i.toNat 3 } (s.pc + 2) fun t =>
        (t.mem.read s.i.toNat).toNat = (readV s x).toNat / 100 ∧
        (t.mem.read (s.i.toNat + 1)).toNat = (readV s x).toNat / 10 % 10 ∧
        (t.mem.read (s.i.toNat + 2)).toNat = (readV s x).toNat % 10) ∧
    (0xFFF < s.i.toNat + 2 → exec (.ldB x) s = .fault (.addressOutOfRange s.pc (max s.i.toNat 0x1000)))

/-- LD [I], Vx: V0..Vx at I..I+x, I kept; beyond 0xFFF it raises AddressOutOfRange at max(I, 0x1000) and writes nothing
(44_index_memory.md R174). -/
def Obligations.StoreRegsStoresV0ToVx : Prop :=
  ∀ (s : State) (x : Reg), s.mem.wf →
    (s.i.toNat + x.val ≤ 0xFFF →
      Completes (.storeRegs x) s { bytes := addressRange s.i.toNat (x.val + 1) } (s.pc + 2) fun t =>
        ∀ r : Reg, r ≤ x → t.mem.read (s.i.toNat + r.val) = readV s r) ∧
    (0xFFF < s.i.toNat + x.val → exec (.storeRegs x) s = .fault (.addressOutOfRange s.pc (max s.i.toNat 0x1000)))

/-- LD Vx, [I]: V0..Vx from I..I+x, I kept; beyond 0xFFF it raises AddressOutOfRange at max(I, 0x1000) and writes nothing
(44_index_memory.md R175). -/
def Obligations.LoadRegsLoadsV0ToVx : Prop :=
  ∀ (s : State) (x : Reg),
    (s.i.toNat + x.val ≤ 0xFFF →
      Completes (.loadRegs x) s { regs := regsUpTo x } (s.pc + 2) fun t =>
        ∀ r : Reg, r ≤ x → readV t r = s.mem.read (s.i.toNat + r.val)) ∧
    (0xFFF < s.i.toNat + x.val → exec (.loadRegs x) s = .fault (.addressOutOfRange s.pc (max s.i.toNat 0x1000)))

/-- What Fx55 stores, Fx65 with the same I and memory loads back, whatever the registers hold by then (44_index_memory.md R174,
R175). -/
def Obligations.LoadRegsRestoresWhatStoreRegsStored : Prop :=
  ∀ (s : State) (x : Reg), s.mem.wf → s.i.toNat + x.val ≤ 0xFFF →
    ∃ t, exec (.storeRegs x) s = .next t ∧
      ∀ u : State, u.i = t.i → u.mem = t.mem →
        ∃ w, exec (.loadRegs x) u = .next w ∧ ∀ r : Reg, r ≤ x → readV w r = readV s r

/-- Self-modified code is what a later fetch sees: after Fx55 of two registers or more, the word at I is V0 : V1
(20_memory.md R65, R54; vector M-16). -/
def Obligations.StoredCodeIsFetched : Prop :=
  ∀ (s : State) (x : Reg), s.mem.wf → 1 ≤ x.val → s.i.toNat + x.val ≤ 0xFFF →
    ∃ t, exec (.storeRegs x) s = .next t ∧
      (wordAtPc (setPc t s.i)).toNat = 256 * (readV s 0).toNat + (readV s 1).toNat ∧
      ∀ i, decodeWord (wordAtPc (setPc t s.i)) = some i → s.aw = none → step (setPc t s.i) = exec i (setPc t s.i)

/-! ## Timers and keypad -/

/-- Fx07, Fx15 and Fx18: Vx gets DT, DT gets Vx, ST gets Vx, and nothing else changes (45_timers_keypad.md R190 to R192). -/
def Obligations.TimerMovesCopyOneByte : Prop :=
  ∀ (s : State) (x : Reg),
    Completes (.ldVxDt x) s { regs := [x] } (s.pc + 2) (fun t => readV t x = s.dt) ∧
    Completes (.ldDtVx x) s { dt := true } (s.pc + 2) (fun t => t.dt = readV s x) ∧
    Completes (.ldStVx x) s { st := true } (s.pc + 2) (fun t => t.st = readV s x)

/-- SKP and SKNP: pc + 4 if the key in Vx is down, or up; else pc + 2; nothing else changes; InvalidKeyIndex when Vx exceeds
15 (45_timers_keypad.md R193, R194). -/
def Obligations.KeySkipsTestTheKeyInVx : Prop :=
  ∀ (s : State) (x : Reg),
    (15 < (readV s x).toNat →
      exec (.skp x) s = .fault (.invalidKeyIndex s.pc (readV s x)) ∧
      exec (.sknp x) s = .fault (.invalidKeyIndex s.pc (readV s x))) ∧
    (∀ k : Key, k.val = (readV s x).toNat →
      Completes (.skp x) s {} (if s.keys[k] = true then s.pc + 4 else s.pc + 2) (fun _ => True) ∧
      Completes (.sknp x) s {} (if s.keys[k] = false then s.pc + 4 else s.pc + 2) (fun _ => True))

/-- Fx0A: the wait begins, pc stays at the instruction, and nothing but AW changes; the steps after it are wait steps
(45_timers_keypad.md R200). -/
def Obligations.LdVxKBeginsTheWait : Prop :=
  ∀ (s : State) (x : Reg), Completes (.ldVxK x) s { aw := true } s.pc fun t =>
    t.aw = some x ∧ (s.kp = none → step t = .next t) ∧
    (∀ k : Key, s.kp = none → ∃ u w, perform (.setKey k.val true) t = .next u ∧ step u = .next w ∧
      (readV w x).toNat = k.val ∧ w.pc = s.pc + 2 ∧ w.aw = none)

/-- A wait step: nothing changes without a latched press; with one, Vr gets the key, AW and KP are cleared, pc moves on by 2,
and nothing else changes; it raises no error and reads no memory (45_timers_keypad.md R195). -/
def Obligations.WaitStepEndsOnlyWithALatchedPress : Prop :=
  ∀ (s : State) (r : Reg), s.aw = some r →
    (s.kp = none → step s = .next s) ∧
    (∀ k : Key, s.kp = some k → ∃ t, step s = .next t ∧ (readV t r).toNat = k.val ∧ t.aw = none ∧ t.kp = none ∧
      t.pc = s.pc + 2 ∧ Frame { regs := [r], aw := true, kp := true } s t) ∧
    (∃ t, step s = .next t ∧ ∀ m, step (setMem s m) = .next (setMem t m))

/-- Of the presses reported during a wait the first wins; releases and later presses leave the latch alone
(45_timers_keypad.md R196). -/
def Obligations.FirstPressOfAWaitIsLatched : Prop :=
  ∀ (s : State) (reports : List (Key × Bool)),
    (s.aw ≠ none → s.kp = none → (reportKeys reports s).kp = firstPress reports) ∧
    (s.aw ≠ none → s.kp ≠ none → (reportKeys reports s).kp = s.kp) ∧
    (s.aw = none → (reportKeys reports s).kp = s.kp) ∧
    reportKeys reports s = { s with keys := (reportKeys reports s).keys, kp := (reportKeys reports s).kp }

/-- Until a press, nothing the core or the host does short of a fresh core makes the waiting program progress
(70_reset_and_hazards.md R256, 60_exceptions.md R233). -/
def Obligations.NoProgressInAWaitWithoutAPress : Prop :=
  ∀ (a : Action) (s t : State), s.aw ≠ none → s.kp = none → keepsWaiting a = true → perform a s = .next t →
    t = { s with mem := t.mem, dt := t.dt, st := t.st, keys := t.keys }

/-! ## The host's operations and reset -/

/-- tick_timers: DT and ST go down by one and stop at 0, and nothing else changes (60_exceptions.md R223). -/
def Obligations.TickDecrementsBothTimers : Prop :=
  ∀ s : State, ∃ t, perform .tickTimers s = .next t ∧ t.dt.toNat = s.dt.toNat - 1 ∧ t.st.toNat = s.st.toNat - 1 ∧
    t = { s with dt := t.dt, st := t.st }

/-- set_key: K[k] gets the state; a press during a wait is latched if none is; nothing else changes; an index above 15 is
refused (60_exceptions.md R226). -/
def Obligations.SetKeyWritesTheKeyAndTheLatch : Prop :=
  ∀ (s : State) (k : Nat) (down : Bool),
    (15 < k → perform (.setKey k down) s = .refused (.keyOutsideInterface k)) ∧
    (k ≤ 15 → ∃ t, perform (.setKey k down) s = .next t ∧
      (∀ j : Key, t.keys[j] = if j.val = k then down else s.keys[j]) ∧
      (down = true ∧ s.aw ≠ none ∧ s.kp = none → t.kp.map Fin.val = some k) ∧
      (¬ (down = true ∧ s.aw ≠ none ∧ s.kp = none) → t.kp = s.kp) ∧
      t = { s with keys := t.keys, kp := t.kp })

/-- load: at most 3584 bytes go to 0x200 and up and the number is returned; a longer image is LoadError and changes nothing; no
register, pc, stack, timer, pixel or key is written (70_reset_and_hazards.md R253). -/
def Obligations.LoadCopiesTheImage : Prop :=
  ∀ (s : State) (bytes : List Byte), s.mem.wf →
    (3584 < bytes.length → perform (.load bytes) s = .fault (.loadError bytes.length)) ∧
    (bytes.length ≤ 3584 → ∃ t, perform (.load bytes) s = .next t ∧ reply (.load bytes) s = some (.loaded bytes.length) ∧
      t = { s with mem := t.mem } ∧
      (∀ k (h : k < bytes.length), t.mem.read (0x200 + k) = bytes[k]) ∧
      (∀ a, a < 0x200 ∨ 0x200 + bytes.length ≤ a → t.mem.read a = s.mem.read a))

/-- new: every element of the state has its reset value, FONT_TABLE being an argument (70_reset_and_hazards.md R250). -/
def Obligations.NewGivesEveryElementItsResetValue : Prop :=
  ∀ (font : Vector Byte 80) (s : State), ∃ t, perform (.new font) s = .next t ∧
    (∀ r, readV t r = 0) ∧ t.i = 0 ∧ t.pc = 0x200 ∧ t.sp = 0 ∧ (∀ j : Fin 16, t.stack[j] = 0) ∧ t.dt = 0 ∧ t.st = 0 ∧
    (∀ px py, t.fb.pixel px py = false) ∧ (∀ k : Key, t.keys[k] = false) ∧ t.aw = none ∧ t.kp = none ∧
    (∀ a (h : a < 80), t.mem.read a = font[a]) ∧ (∀ a, 80 ≤ a → a ≤ 0xFFF → t.mem.read a = 0)

/-- The model's reset state is `new` with the default font of R60's table, but for its own counter of draws; reset memory
lists nothing and reads, glyph by glyph, as the table. The table's bytes are PRESUMED (log entry 2), the counter's reset and
that `new` keeps it are DESIGN CHOICES (log entries 1 and 6), the empty list is the model's form (log entry 9). -/
def Obligations.ResetIsNewWithTheDefaultFont : Prop :=
  (∀ (font : Vector Byte 80) (s : State), (∀ (d : Fin 16) (row : Fin 5), font[5 * d.val + row.val] = glyphByte d row) →
    new font s = { State.reset with draws := s.draws }) ∧
  State.reset.mem = [] ∧
  (List.range 16).map (fun d => (List.range 5).map fun row => State.reset.mem.read (5 * d + row)) = fontTable

/-- A step taken before any load raises InvalidOpcode(0x200, 0x0000), whatever the font and whatever steps, ticks, key reports,
reads and further constructions come between (70_reset_and_hazards.md R254); so does every state that waits for no key, has
pc at 0x200 and holds the zero word there. The state after an erring action is the one before it: DEDUCED, log entry 4. -/
def Obligations.StepBeforeLoadIsInvalidOpcode : Prop :=
  (∀ s : State, s.aw = none → s.pc = 0x200 → s.mem.read 0x200 = 0 → s.mem.read 0x201 = 0 →
    step s = .fault (.invalidOpcode 0x200 0x0000)) ∧
  (∀ (font : Vector Byte 80) (s : State) (actions : List Action), (∀ a ∈ actions, isLoad a = false) →
    step (after actions (new font s)) = .fault (.invalidOpcode 0x200 0x0000))

/-- A word placed with `withFetchWord` is the very next instruction (the model's own operation, log entry 7). -/
def Obligations.PlacedWordIsTheNextInstruction : Prop :=
  ∀ (s : State) (w : Word) (i : Instr), s.mem.wf → decodeWord w = some i →
    step (s.withFetchWord 16 w.toNat) = exec i (s.withFetchWord 16 w.toNat)

/-! ## The whole machine -/

/-- An instruction writes nothing that its row of the table lists not (10_state.md R37). -/
def Obligations.InstructionWritesOnlyWhatItsRowLists : Prop :=
  ∀ (i : Instr) (s t : State), exec i s = .next t → Frame (writesOf s i) s t

/-- No instruction reads the sound timer: whatever it holds, every instruction has the same outcome but for the sound timer
itself (10_state.md R28). -/
def Obligations.NoInstructionReadsTheSoundTimer : Prop :=
  ∀ (i : Instr) (s : State) (b : Byte), forgetSt (exec i (setSt s b)) = forgetSt (exec i s)

/-- The state after reset (70_reset_and_hazards.md R250) meets `Inv`: R36's invariants of reachable states (10_state.md) and
the clauses the model adds, the canonical form of memory (DESIGN CHOICE, log entry 9) and the ranges of pc (DEDUCED, log entry
14). -/
def Obligations.ResetMeetsTheReachableStateInvariant : Prop := Inv State.reset

/-- Every step keeps `Inv`, from every state that meets it: R36's invariants (10_state.md), and the clauses the model adds,
which are not R36's: the canonical form of memory (DESIGN CHOICE, log entry 9), and the ranges of pc, DEDUCED from 30_encoding.md
R78, 42_control_flow.md R124, 45_timers_keypad.md R195 and 20_memory.md R54 (log entry 14). -/
def Obligations.StepKeepsTheReachableStateInvariant : Prop :=
  ∀ s t : State, Inv s → step s = .next t → Inv t

/-- Every state that the actions of the core and the host reach, in any order, meets `Inv`, and every action keeps it from any
state that meets it (10_state.md R36, 60_exceptions.md R229). `Inv` holds R36's invariants and the clauses the model adds, which
are not R36's: the canonical form of memory (DESIGN CHOICE, log entry 9), and the ranges of pc, DEDUCED from 30_encoding.md R78,
42_control_flow.md R124, 45_timers_keypad.md R195 and 20_memory.md R54 (log entry 14). A run ends at an error (log entry 4). -/
def Obligations.EveryActionKeepsTheReachableStateInvariant : Prop :=
  (∀ (a : Action) (s t : State), Inv s → perform a s = .next t → Inv t) ∧ ∀ s : State, Reachable s → Inv s
end

