-- ==== Sys2Proof/Laws/Decode.lean ====
section
/-! SUPPORT. The laws of the instruction words: the fields of an encoded word, what a mask keeps of it, the disjointness of the
opcode map's patterns, and that a word accepted by a row decodes to what the row builds. -/

namespace Sys2Proof.Laws

open Sys2Proof

theorem toNat_append4 {n : Nat} (hi : BitVec 4) (lo : BitVec n) :
    (hi ++ lo).toNat = hi.toNat * 2 ^ n + lo.toNat := by
  rw [BitVec.toNat_append, Nat.shiftLeft_eq, Nat.mul_comm, Nat.two_pow_add_eq_or_of_lt lo.isLt]

@[simp] theorem toNat_regBits (r : Reg) : (regBits r).toNat = r.val := rfl

theorem toNat_formNNN (op : BitVec 4) (nnn : Addr12) : (formNNN op nnn).toNat = op.toNat * 4096 + nnn.toNat :=
  toNat_append4 op nnn

theorem toNat_formXYN (op : BitVec 4) (x y : Reg) (n : BitVec 4) :
    (formXYN op x y n).toNat = op.toNat * 4096 + x.val * 256 + y.val * 16 + n.toNat := by
  have hn := n.isLt
  have hy : (regBits y ++ n).toNat = y.val * 16 + n.toNat := toNat_append4 (regBits y) n
  have hx : (op ++ regBits x).toNat = op.toNat * 16 + x.val := toNat_append4 op (regBits x)
  have := (regBits y ++ n).isLt
  simp only [formXYN]
  rw [BitVec.toNat_append, Nat.shiftLeft_eq, Nat.mul_comm, ← Nat.two_pow_add_eq_or_of_lt this, hx, hy]
  omega

theorem toNat_formXKK (op : BitVec 4) (x : Reg) (kk : Byte) :
    (formXKK op x kk).toNat = op.toNat * 4096 + x.val * 256 + kk.toNat := by
  have hx : (op ++ regBits x).toNat = op.toNat * 16 + x.val := toNat_append4 op (regBits x)
  have := kk.isLt
  simp only [formXKK]
  rw [BitVec.toNat_append, Nat.shiftLeft_eq, Nat.mul_comm, ← Nat.two_pow_add_eq_or_of_lt this, hx]
  omega

theorem toNat_fieldOp (w : Word) : (fieldOp w).toNat = w.toNat / 4096 % 16 := by
  simp [fieldOp, Nat.shiftRight_eq_div_pow]

theorem val_fieldX (w : Word) : (fieldX w).val = w.toNat / 256 % 16 := by
  simp [fieldX, Nat.shiftRight_eq_div_pow]

theorem val_fieldY (w : Word) : (fieldY w).val = w.toNat / 16 % 16 := by
  simp [fieldY, Nat.shiftRight_eq_div_pow]

theorem fieldN_eq (w : Word) : fieldN w = w.toNat % 16 := by
  simp [fieldN]

theorem toNat_fieldKK (w : Word) : (fieldKK w).toNat = w.toNat % 256 := by
  simp [fieldKK]

theorem toNat_fieldNNN (w : Word) : (fieldNNN w).toNat = w.toNat % 4096 := by
  simp [fieldNNN]

/-! The fields of the words the encoder makes. -/

@[simp] theorem fieldX_formXKK (op : BitVec 4) (x : Reg) (kk : Byte) : fieldX (formXKK op x kk) = x := by
  refine Fin.ext ?_
  have := kk.isLt
  rw [val_fieldX, toNat_formXKK]
  omega

@[simp] theorem fieldKK_formXKK (op : BitVec 4) (x : Reg) (kk : Byte) : fieldKK (formXKK op x kk) = kk := by
  refine BitVec.eq_of_toNat_eq ?_
  have := kk.isLt
  rw [toNat_fieldKK, toNat_formXKK]
  omega

@[simp] theorem fieldX_formXYN (op : BitVec 4) (x y : Reg) (n : BitVec 4) : fieldX (formXYN op x y n) = x := by
  refine Fin.ext ?_
  have := n.isLt
  rw [val_fieldX, toNat_formXYN]
  omega

@[simp] theorem fieldY_formXYN (op : BitVec 4) (x y : Reg) (n : BitVec 4) : fieldY (formXYN op x y n) = y := by
  refine Fin.ext ?_
  have := n.isLt
  rw [val_fieldY, toNat_formXYN]
  omega

@[simp] theorem fieldN_formXYN (op : BitVec 4) (x y : Reg) (n : BitVec 4) : fieldN (formXYN op x y n) = n.toNat := by
  have := n.isLt
  rw [fieldN_eq, toNat_formXYN]
  omega

@[simp] theorem fieldNNN_formNNN (op : BitVec 4) (nnn : Addr12) : fieldNNN (formNNN op nnn) = nnn := by
  refine BitVec.eq_of_toNat_eq ?_
  have := nnn.isLt
  rw [toNat_fieldNNN, toNat_formNNN]
  omega

/-! What the masks of the opcode map keep of the words the encoder makes. -/

theorem nibble_and_F (n : BitVec 4) : n &&& 0xF = n := by revert n; decide

theorem byte_and_FF (b : Byte) : b &&& 0xFF = b := by
  rw [show (0xFF : Byte) = BitVec.allOnes 8 from rfl, BitVec.and_allOnes]

theorem nibble_and_0 (n : BitVec 4) : n &&& 0 = 0 := BitVec.and_zero

@[simp] theorem formNNN_and_F000 (op : BitVec 4) (nnn : Addr12) : formNNN op nnn &&& 0xF000 = formNNN op 0 := by
  show (op ++ nnn) &&& ((0xF : BitVec 4) ++ (0 : BitVec 12)) = op ++ (0 : BitVec 12)
  rw [BitVec.and_append, nibble_and_F, show nnn &&& 0 = 0 from BitVec.and_zero]

@[simp] theorem formXKK_and_F000 (op : BitVec 4) (x : Reg) (kk : Byte) : formXKK op x kk &&& 0xF000 = formXKK op 0 0 := by
  show ((op ++ regBits x) ++ kk) &&& (((0xF : BitVec 4) ++ (0 : BitVec 4)) ++ (0 : BitVec 8)) =
    (op ++ (0 : BitVec 4)) ++ (0 : BitVec 8)
  rw [BitVec.and_append, BitVec.and_append, nibble_and_F, nibble_and_0, show kk &&& 0 = 0 from BitVec.and_zero]

@[simp] theorem formXKK_and_F0FF (op : BitVec 4) (x : Reg) (kk : Byte) : formXKK op x kk &&& 0xF0FF = formXKK op 0 kk := by
  show ((op ++ regBits x) ++ kk) &&& (((0xF : BitVec 4) ++ (0 : BitVec 4)) ++ (0xFF : BitVec 8)) =
    (op ++ (0 : BitVec 4)) ++ kk
  rw [BitVec.and_append, BitVec.and_append, nibble_and_F, nibble_and_0, byte_and_FF]

/-- Masking a word that two bytes of two nibbles make. -/
theorem nibbles_and (a b c d a' b' c' d' : BitVec 4) :
    ((((a ++ b : Byte) ++ (c ++ d : Byte)) : Word) &&& ((a' ++ b' : Byte) ++ (c' ++ d' : Byte) : Word)) =
      (((a &&& a') ++ (b &&& b') : Byte) ++ ((c &&& c') ++ (d &&& d') : Byte) : Word) := by
  have h := BitVec.and_append (x₁ := (a ++ b : Byte)) (y₁ := (c ++ d : Byte)) (x₂ := (a' ++ b' : Byte)) (y₂ := (c' ++ d' : Byte))
  have h1 := BitVec.and_append (x₁ := a) (y₁ := b) (x₂ := a') (y₂ := b')
  have h2 := BitVec.and_append (x₁ := c) (y₁ := d) (x₂ := c') (y₂ := d')
  exact h.trans (congrArg₂ (fun (p q : Byte) => (p ++ q : Word)) h1 h2)

@[simp] theorem formXYN_and_F000 (op : BitVec 4) (x y : Reg) (n : BitVec 4) :
    formXYN op x y n &&& 0xF000 = formXYN op 0 0 0 := by
  have h := nibbles_and op (regBits x) (regBits y) n 0xF 0 0 0
  simp only [nibble_and_F, nibble_and_0] at h
  exact h

@[simp] theorem formXYN_and_F00F (op : BitVec 4) (x y : Reg) (n : BitVec 4) :
    formXYN op x y n &&& 0xF00F = formXYN op 0 0 n := by
  have h := nibbles_and op (regBits x) (regBits y) n 0xF 0 0 0xF
  simp only [nibble_and_F, nibble_and_0] at h
  exact h

/-! The patterns are disjoint, so the decoder answers the one row that accepts the word. -/

/-- No word matches two patterns: wherever both masks look, the two values differ somewhere (30_encoding.md R73). -/
def rowsConflict (r q : OpcodeRow) : Bool := r.value &&& q.mask != q.value &&& r.mask

theorem not_accepts_of_conflict {r q : OpcodeRow} (h : rowsConflict r q = true) {w : Word} (hr : r.accepts w = true) :
    q.accepts w = false := by
  by_contra hq
  simp only [OpcodeRow.accepts, beq_iff_eq, Bool.not_eq_false] at hr hq
  simp only [rowsConflict, bne_iff_ne, ne_eq] at h
  apply h
  rw [← hr, ← hq, BitVec.and_assoc, BitVec.and_assoc, BitVec.and_comm r.mask]

theorem opcodeTable_conflicts : opcodeTable.Pairwise fun r q => rowsConflict r q = true := by decide

/-- A word that a row of the map accepts decodes to what that row builds. -/
theorem decodeWord_of_row {r : OpcodeRow} (hr : r ∈ opcodeTable) {w : Word} (hw : r.accepts w = true) :
    decodeWord w = some (r.build w) := by
  suffices h : ∀ l : List OpcodeRow, (l.Pairwise fun r q => rowsConflict r q = true) → r ∈ l →
      l.find? (fun r => r.accepts w) = some r by
    rw [decodeWord, h _ opcodeTable_conflicts hr]; rfl
  intro l hl hmem
  induction l with
  | nil => cases hmem
  | cons q l ih =>
    obtain ⟨hq, hl⟩ := List.pairwise_cons.mp hl
    rcases List.mem_cons.mp hmem with rfl | hmem
    · simp [hw]
    · have hqr := hq r hmem
      have hfalse : q.accepts w = false := by
        by_contra hc
        have := not_accepts_of_conflict hqr (by simpa using hc)
        simp [hw] at this
      rw [List.find?_cons, hfalse]
      exact ih hl hmem

/-- A word that decodes is accepted by a row of the map, which builds its instruction. -/
theorem row_of_decodeWord {w : Word} {i : Instr} (h : decodeWord w = some i) :
    ∃ r ∈ opcodeTable, r.accepts w = true ∧ r.build w = i := by
  simp only [decodeWord, Option.map_eq_some_iff] at h
  obtain ⟨r, hr, rfl⟩ := h
  exact ⟨r, List.mem_of_find?_eq_some hr, by simpa using List.find?_some hr, rfl⟩

end Sys2Proof.Laws
end

