-- ==== Sys2Proof/Laws/Framebuffer.lean ====
section
/-! SUPPORT. The laws of the framebuffer: a pixel after one is set, what Toggle does, and what the draw of a sprite does to
every pixel. -/

namespace Sys2Proof.Laws

open Sys2Proof Sys2Proof.Machine

theorem pixel_setPixel (fb : Framebuffer) (x px : Fin 64) (y py : Fin 32) (lit : Bool) :
    (fb.setPixel x y lit).pixel px py = if px = x ∧ py = y then lit else fb.pixel px py := by
  simp only [Framebuffer.pixel, Framebuffer.setPixel, Fin.getElem_fin, Vector.getElem_set, Fin.ext_iff]
  by_cases hx : x.val = px.val
  · by_cases hy : y.val = py.val
    · simp [hx, hy]
    · simp [hx, hy, Ne.symm hy]
  · simp [hx, Ne.symm hx]

@[simp] theorem pixel_clear (px : Fin 64) (py : Fin 32) : Framebuffer.clear.pixel px py = false := by
  simp [Framebuffer.pixel, Framebuffer.clear]

/-- Two framebuffers with the same pixels are equal. -/
theorem framebuffer_ext {fb fb' : Framebuffer} (h : ∀ px py, fb.pixel px py = fb'.pixel px py) : fb = fb' := by
  ext x hx y hy
  exact h ⟨x, hx⟩ ⟨y, hy⟩

/-- Toggle inside the grid. -/
theorem toggle_of_lt (fb : Framebuffer) (x : Fin 64) (y : Fin 32) :
    fb.toggle x.val y.val = .ok (fb.setPixel x y (!fb.pixel x y), fb.pixel x y) := by
  simp [Framebuffer.toggle]

/-- Pixel (px, qy) is one that a row drawn at row `py` toggles: a set bit of the row falls on it. -/
def RowHits (row : Byte) (cx py : Nat) (bs : List Nat) (px : Fin 64) (qy : Fin 32) : Prop :=
  qy.val = py ∧ ∃ b ∈ bs, row.getLsbD (7 - b) = true ∧ px.val = (cx + b) % 64

/-- Everything the draw of one sprite row can do, when its columns are distinct: it never fails, it flips exactly the
pixels hit, and it gathers whether one of them was lit. -/
theorem drawRow_spec (row : Byte) (cx : Nat) (py : Fin 32) (bs : List Nat) (fb : Framebuffer) (c : Bool)
    (distinct : bs.Pairwise fun b d => (cx + b) % 64 ≠ (cx + d) % 64) :
    ∃ fb' c', drawRow row cx py.val bs fb c = .ok (fb', c') ∧
      (∀ px qy, (RowHits row cx py.val bs px qy → fb'.pixel px qy = !fb.pixel px qy) ∧
        (¬ RowHits row cx py.val bs px qy → fb'.pixel px qy = fb.pixel px qy)) ∧
      (c' = true ↔ c = true ∨ ∃ px qy, RowHits row cx py.val bs px qy ∧ fb.pixel px qy = true) := by
  induction bs generalizing fb c with
  | nil => exact ⟨fb, c, rfl, by simp [RowHits], by simp [RowHits]⟩
  | cons b bs ih =>
    obtain ⟨hne, hbs⟩ := List.pairwise_cons.mp distinct
    by_cases hbit : row.getLsbD (7 - b) = true
    · have hlt : (cx + b) % 64 < 64 := Nat.mod_lt _ (by decide)
      let x : Fin 64 := ⟨(cx + b) % 64, hlt⟩
      obtain ⟨fb', c', heq, hpix, hcol⟩ := ih (fb.setPixel x py (!fb.pixel x py)) (c || fb.pixel x py) hbs
      refine ⟨fb', c', ?_, ?_, ?_⟩
      · rw [drawRow, if_pos hbit, show (cx + b) % 64 = x.val from rfl, toggle_of_lt]
        exact heq
      · intro px qy
        have hnot : ∀ qy, ¬ RowHits row cx py.val bs x qy := by
          rintro qy ⟨-, d, hd, -, he⟩
          exact hne d hd he
        have hsplit : RowHits row cx py.val (b :: bs) px qy ↔
            (px = x ∧ qy = py) ∨ RowHits row cx py.val bs px qy := by
          simp only [RowHits, List.mem_cons, exists_eq_or_imp, hbit, true_and, Fin.ext_iff, x]
          tauto
        obtain ⟨h1, h2⟩ := hpix px qy
        rw [hsplit]
        by_cases hx : px = x ∧ qy = py
        · obtain ⟨rfl, rfl⟩ := hx
          have := h2 (hnot qy)
          simp [this, pixel_setPixel]
        · simp only [hx, false_or]
          rw [pixel_setPixel, if_neg hx] at h1 h2
          exact ⟨h1, h2⟩
      · rw [hcol]
        have hnot : ∀ qy, ¬ RowHits row cx py.val bs x qy := by
          rintro qy ⟨-, d, hd, -, he⟩
          exact hne d hd he
        constructor
        · rintro (h | ⟨px, qy, hh, hl⟩)
          · rcases Bool.or_eq_true _ _ |>.mp h with h | h
            · exact .inl h
            · exact .inr ⟨x, py, ⟨rfl, b, by simp, hbit, rfl⟩, h⟩
          · refine .inr ⟨px, qy, ⟨hh.1, ?_⟩, ?_⟩
            · obtain ⟨d, hd, he⟩ := hh.2
              exact ⟨d, by simp [hd], he⟩
            · rw [pixel_setPixel] at hl
              split at hl
              · next hx => exact absurd (hx.1 ▸ hh) (hnot qy)
              · exact hl
        · rintro (h | ⟨px, qy, ⟨hy, d, hd, hb, hx⟩, hl⟩)
          · simp [h]
          · rcases List.mem_cons.mp hd with rfl | hd
            · have e1 : px = x := Fin.ext hx
              have e2 : qy = py := Fin.ext hy
              subst e1 e2
              simp [hl]
            · refine .inr ⟨px, qy, ⟨hy, d, hd, hb, hx⟩, ?_⟩
              rw [pixel_setPixel, if_neg]
              · exact hl
              · rintro ⟨rfl, -⟩
                exact hnot qy ⟨hy, d, hd, hb, hx⟩
    · obtain ⟨fb', c', heq, hpix, hcol⟩ := ih fb c hbs
      have hsame : ∀ px qy, RowHits row cx py.val (b :: bs) px qy ↔ RowHits row cx py.val bs px qy := by
        intro px qy
        simp [RowHits, hbit]
      exact ⟨fb', c', by rw [drawRow, if_neg hbit]; exact heq, by simpa only [hsame] using hpix,
        by simpa only [hsame] using hcol⟩

/-- Pixel (px, py) is one that a sprite drawn at (cx, cy) toggles: a set bit of one of its rows falls on it, the first row
of the list being row `r` of the sprite. -/
def SpriteHits (rows : List Byte) (r cx cy : Nat) (px : Fin 64) (py : Fin 32) : Prop :=
  ∃ k, ∃ h : k < rows.length, ∃ b, b < 8 ∧ (rows[k]).getLsbD (7 - b) = true ∧
    px.val = (cx + b) % 64 ∧ py.val = (cy + (r + k)) % 32

theorem spriteHits_cons (row : Byte) (rows : List Byte) (r cx cy : Nat) (px : Fin 64) (py : Fin 32) :
    SpriteHits (row :: rows) r cx cy px py ↔
      RowHits row cx ((cy + r) % 32) spriteColumns px py ∨ SpriteHits rows (r + 1) cx cy px py := by
  constructor
  · rintro ⟨k, hk, b, hb, hbit, hx, hy⟩
    cases k with
    | zero =>
      refine .inl ⟨by simpa using hy, b, ?_, by simpa using hbit, hx⟩
      simp only [spriteColumns, List.mem_cons, List.not_mem_nil, or_false]
      omega
    | succ k =>
      refine .inr ⟨k, by simpa using hk, b, hb, by simpa using hbit, hx, ?_⟩
      rw [hy]; congr 1; omega
  · rintro (⟨hy, b, hb, hbit, hx⟩ | ⟨k, hk, b, hb, hbit, hx, hy⟩)
    · refine ⟨0, by simp, b, ?_, by simpa using hbit, hx, by simpa using hy⟩
      simp only [spriteColumns, List.mem_cons, List.not_mem_nil, or_false] at hb
      omega
    · refine ⟨k + 1, by simpa using hk, b, hb, by simpa using hbit, hx, ?_⟩
      rw [hy]; congr 1; omega

/-- Everything the draw of a sprite of at most 32 rows can do: it never fails, it flips exactly the pixels hit, and it says
whether one of them was lit. -/
theorem drawRows_spec (cx cy : Nat) (rows : List Byte) (r : Nat) (fb : Framebuffer) (c : Bool) (short : rows.length ≤ 32) :
    ∃ fb' c', drawRows cx cy rows r fb c = .ok (fb', c') ∧
      (∀ px py, (SpriteHits rows r cx cy px py → fb'.pixel px py = !fb.pixel px py) ∧
        (¬ SpriteHits rows r cx cy px py → fb'.pixel px py = fb.pixel px py)) ∧
      (c' = true ↔ c = true ∨ ∃ px py, SpriteHits rows r cx cy px py ∧ fb.pixel px py = true) := by
  induction rows generalizing r fb c with
  | nil => exact ⟨fb, c, rfl, by simp [SpriteHits], by simp [SpriteHits]⟩
  | cons row rows ih =>
    have hdis : spriteColumns.Pairwise fun b d => (cx + b) % 64 ≠ (cx + d) % 64 := by
      simp [spriteColumns]
      omega
    let y : Fin 32 := ⟨(cy + r) % 32, Nat.mod_lt _ (by decide)⟩
    obtain ⟨fb1, c1, heq1, hpix1, hcol1⟩ := drawRow_spec row cx y spriteColumns fb c hdis
    obtain ⟨fb2, c2, heq2, hpix2, hcol2⟩ := ih (r + 1) fb1 c1 (by simp at short; omega)
    have hdisj : ∀ px py, RowHits row cx y.val spriteColumns px py → ¬ SpriteHits rows (r + 1) cx cy px py := by
      rintro px py ⟨hy, -⟩ ⟨k, hk, -, -, -, -, hy'⟩
      simp only [y] at hy
      simp only [List.length_cons] at short
      omega
    have hs := fun px py => spriteHits_cons row rows r cx cy px py
    refine ⟨fb2, c2, ?_, ?_, ?_⟩
    · rw [drawRows, show (cy + r) % 32 = y.val from rfl, heq1]
      exact heq2
    · intro px py
      rw [hs]
      obtain ⟨a1, a2⟩ := hpix1 px py
      obtain ⟨b1, b2⟩ := hpix2 px py
      by_cases hr : RowHits row cx y.val spriteColumns px py
      · have hn := hdisj px py hr
        refine ⟨fun _ => ?_, fun h => absurd (.inl hr) h⟩
        rw [b2 hn, a1 hr]
      · refine ⟨fun h => ?_, fun h => ?_⟩
        · have hk := h.resolve_left hr
          rw [b1 hk, a2 hr]
        · rw [b2 (fun hk => h (.inr hk)), a2 hr]
    · rw [hcol2, hcol1]
      constructor
      · rintro ((h | ⟨px, py, hh, hl⟩) | ⟨px, py, hh, hl⟩)
        · exact .inl h
        · exact .inr ⟨px, py, (hs px py).mpr (.inl hh), hl⟩
        · refine .inr ⟨px, py, (hs px py).mpr (.inr hh), ?_⟩
          rwa [(hpix1 px py).2 fun hr => hdisj px py hr hh] at hl
      · rintro (h | ⟨px, py, hh, hl⟩)
        · exact .inl (.inl h)
        · rcases (hs px py).mp hh with hr | hk
          · exact .inl (.inr ⟨px, py, hr, hl⟩)
          · refine .inr ⟨px, py, hk, ?_⟩
            rwa [(hpix1 px py).2 fun hr => hdisj px py hr hk]

/-- A sprite of any length is drawn without an error: DRW passes only coordinates inside the grid. -/
theorem drawRow_ok (row : Byte) (cx py : Nat) (hy : py < 32) (bs : List Nat) (fb : Framebuffer) (c : Bool) :
    ∃ fb' c', drawRow row cx py bs fb c = .ok (fb', c') := by
  induction bs generalizing fb c with
  | nil => exact ⟨fb, c, rfl⟩
  | cons b bs ih =>
    have hx : (cx + b) % 64 < 64 := Nat.mod_lt _ (by decide)
    simp only [drawRow, Framebuffer.toggle, hx, hy, and_self, dite_true]
    split <;> apply ih

theorem drawSprite_ok (cx cy : Nat) (rows : List Byte) (fb : Framebuffer) :
    ∃ fb' c', drawSprite cx cy rows fb = .ok (fb', c') := by
  suffices h : ∀ r c, ∃ fb' c', drawRows cx cy rows r fb c = .ok (fb', c') from h 0 false
  induction rows generalizing fb with
  | nil => exact fun r c => ⟨fb, c, rfl⟩
  | cons row rows ih =>
    intro r c
    obtain ⟨fb1, c1, h1⟩ := drawRow_ok row cx ((cy + r) % 32) (Nat.mod_lt _ (by decide)) spriteColumns fb c
    obtain ⟨fb2, c2, h2⟩ := ih fb1 (r + 1) c1
    exact ⟨fb2, c2, by rw [drawRows, h1]; exact h2⟩

end Sys2Proof.Laws
end

