-- ==== Sys2Proof/Laws/Memory.lean ====
section
/-! SUPPORT. The laws of memory: reading after a write, the canonical form kept by every write, and when an access has an
invalid address. -/

namespace Sys2Proof.Laws

open Sys2Proof Sys2Proof.Machine

@[simp] theorem read_nil (a : Nat) : Memory.read [] a = Memory.initial a := rfl

theorem read_cons (k : Nat) (b : Byte) (m : Memory) (a : Nat) :
    Memory.read ((k, b) :: m) a = if a = k then b else m.read a := rfl

/-- The tail of a canonical memory is canonical, and lists only addresses above the head's. -/
theorem wf_cons {k : Nat} {b : Byte} {m : Memory} :
    Memory.wf ((k, b) :: m) ↔
      (∀ c ∈ m, k < c.1) ∧ k ≤ maxAddress ∧ b ≠ Memory.initial k ∧ Memory.wf m := by
  simp only [Memory.wf, List.pairwise_cons, List.mem_cons, forall_eq_or_imp]
  tauto

/-- An address below every listed one reads as its reset contents. -/
theorem read_of_lt {m : Memory} {a : Nat} (h : ∀ c ∈ m, a < c.1) : m.read a = Memory.initial a := by
  induction m with
  | nil => rfl
  | cons c m ih =>
    obtain ⟨k, b⟩ := c
    have hk := h (k, b) (by simp)
    rw [read_cons, if_neg (by simpa using hk.ne), ih fun c hc => h c (by simp [hc])]

theorem read_cell_append {a : Nat} {m : Memory} (h : ∀ c ∈ m, a < c.1) (b : Byte) (c : Nat) :
    Memory.read (Memory.cell a b ++ m) c = if c = a then b else m.read c := by
  unfold Memory.cell
  split
  · next hb =>
    split
    · next hc => subst hc; simpa [hb] using read_of_lt h
    · simp
  · simp [read_cons]

/-- What a canonical memory reads after a write. -/
theorem read_write {m : Memory} (h : m.wf) (a : Nat) (b : Byte) (c : Nat) :
    (m.write a b).read c = if c = a then b else m.read c := by
  induction m with
  | nil =>
    have := read_cell_append (a := a) (m := []) (by simp) b c
    simpa [Memory.write] using this
  | cons e m ih =>
    obtain ⟨k, d⟩ := e
    obtain ⟨hlt, -, -, hm⟩ := wf_cons.mp h
    rw [Memory.write]
    split
    · next hak =>
      refine read_cell_append ?_ b c
      intro x hx
      rcases List.mem_cons.mp hx with rfl | hx
      · exact hak
      · exact hak.trans (hlt x hx)
    · split
      · next hak =>
        subst hak
        rw [read_cell_append hlt, read_cons]
        split <;> simp_all
      · next hak =>
        rw [read_cons, ih hm, read_cons]
        by_cases hck : c = k
        · subst hck; simp [Ne.symm hak]
        · simp [hck]

/-- A write changes no other byte, in any memory. -/
theorem read_write_other (m : Memory) (a : Nat) (b : Byte) {c : Nat} (h : c ≠ a) :
    (m.write a b).read c = m.read c := by
  induction m with
  | nil => simp only [Memory.write, Memory.cell]; split <;> simp [read_cons, h]
  | cons e m ih =>
    obtain ⟨k, d⟩ := e
    simp only [Memory.write, Memory.cell]
    (repeat' split) <;> simp_all [read_cons]

theorem mem_write {m : Memory} {a : Nat} {b : Byte} {c : Host.Cell} (h : c ∈ m.write a b) :
    c ∈ m ∨ (c = (a, b) ∧ b ≠ Memory.initial a) := by
  induction m with
  | nil =>
    simp only [Memory.write, Memory.cell] at h
    split at h <;> simp_all
  | cons e m ih =>
    obtain ⟨k, d⟩ := e
    simp only [Memory.write, Memory.cell] at h
    (repeat' split at h) <;> simp_all <;> tauto

/-- A write at a valid address keeps the canonical form. -/
theorem wf_write {m : Memory} (h : m.wf) {a : Nat} (ha : a ≤ maxAddress) (b : Byte) : (m.write a b).wf := by
  induction m with
  | nil =>
    simp only [Memory.write, Memory.cell]
    split
    · exact h
    · next hb => exact wf_cons.mpr ⟨by simp, ha, hb, h⟩
  | cons e m ih =>
    obtain ⟨k, d⟩ := e
    obtain ⟨hlt, hk, hd, hm⟩ := wf_cons.mp h
    simp only [Memory.write, Memory.cell]
    split
    · next hak =>
      split
      · exact h
      · next hb =>
        refine wf_cons.mpr ⟨?_, ha, hb, h⟩
        intro x hx
        rcases List.mem_cons.mp hx with rfl | hx
        · exact hak
        · exact hak.trans (hlt x hx)
    · split
      · next hak =>
        subst hak
        split
        · exact hm
        · next hb => exact wf_cons.mpr ⟨hlt, ha, hb, hm⟩
      · next hak hne =>
        refine wf_cons.mpr ⟨?_, hk, hd, ih hm⟩
        intro x hx
        rcases mem_write hx with hx | ⟨rfl, -⟩
        · exact hlt x hx
        · show k < a
          omega

/-- Writing several bytes at valid addresses keeps the canonical form. -/
theorem wf_writeBytes {m : Memory} (h : m.wf) {a : Nat} {bs : List Byte} (ha : bs = [] ∨ a + bs.length ≤ 0x1000) :
    (m.writeBytes a bs).wf := by
  induction bs generalizing m a with
  | nil => exact h
  | cons b bs ih =>
    have hle : a + (bs.length + 1) ≤ 0x1000 := by simpa using ha
    have ha' : a ≤ maxAddress := by simp only [maxAddress]; omega
    exact ih (wf_write h ha' b) (.inr (by omega))

/-- Writing several bytes changes no byte outside them, in any memory. -/
theorem read_writeBytes_other (m : Memory) (a : Nat) (bs : List Byte) {c : Nat} (h : c < a ∨ a + bs.length ≤ c) :
    (m.writeBytes a bs).read c = m.read c := by
  induction bs generalizing m a with
  | nil => rfl
  | cons b bs ih =>
    rw [Memory.writeBytes, ih _ _ (by simp at h; omega), read_write_other]
    simp at h; omega

/-- Writing several bytes at valid addresses puts each byte at its address. -/
theorem read_writeBytes {m : Memory} (h : m.wf) {a : Nat} {bs : List Byte} (ha : bs = [] ∨ a + bs.length ≤ 0x1000)
    {k : Nat} (hk : k < bs.length) : (m.writeBytes a bs).read (a + k) = bs[k] := by
  induction bs generalizing m a k with
  | nil => simp at hk
  | cons b bs ih =>
    have hle : a + (bs.length + 1) ≤ 0x1000 := by simpa using ha
    have ha' : a ≤ maxAddress := by simp only [maxAddress]; omega
    cases k with
    | zero =>
      rw [Memory.writeBytes, read_writeBytes_other _ _ _ (by omega), read_write h]
      simp
    | succ k =>
      have := ih (m := m.write a b) (wf_write h ha' b) (a := a + 1) (.inr (by omega)) (k := k) (by simpa using hk)
      rw [Memory.writeBytes, List.getElem_cons_succ, ← this]
      congr 1
      omega

@[simp] theorem length_readBytes (m : Memory) (a n : Nat) : (m.readBytes a n).length = n := by
  induction n generalizing a with
  | zero => rfl
  | succ n ih => simp [Memory.readBytes, ih]

theorem getElem_readBytes (m : Memory) (a n k : Nat) (h : k < (m.readBytes a n).length) :
    (m.readBytes a n)[k] = m.read (a + k) := by
  induction n generalizing a k with
  | zero => simp at h
  | succ n ih =>
    cases k with
    | zero => rfl
    | succ k =>
      simp only [Memory.readBytes, List.getElem_cons_succ]
      rw [ih]
      congr 1
      omega

/-- Two canonical memories that read alike everywhere are equal. -/
theorem eq_of_read_eq {m m' : Memory} (h : m.wf) (h' : m'.wf) (e : ∀ a, m.read a = m'.read a) : m = m' := by
  induction m generalizing m' with
  | nil =>
    cases m' with
    | nil => rfl
    | cons c m' =>
      obtain ⟨k, b⟩ := c
      have := e k
      simp [read_cons] at this
      exact absurd this.symm (wf_cons.mp h').2.2.1
  | cons c m ih =>
    obtain ⟨k, b⟩ := c
    obtain ⟨hlt, -, hb, hm⟩ := wf_cons.mp h
    cases m' with
    | nil =>
      have := e k
      simp [read_cons] at this
      exact absurd this hb
    | cons c' m' =>
      obtain ⟨k', b'⟩ := c'
      obtain ⟨hlt', -, hb', hm'⟩ := wf_cons.mp h'
      have hkk : k = k' := by
        rcases Nat.lt_trichotomy k k' with hl | he | hl
        · have := e k
          rw [read_cons, if_pos rfl, read_of_lt] at this
          · exact absurd this hb
          · intro x hx
            rcases List.mem_cons.mp hx with rfl | hx
            · exact hl
            · exact hl.trans (hlt' x hx)
        · exact he
        · have := e k'
          rw [read_cons (k := k'), if_pos rfl, read_of_lt] at this
          · exact absurd this.symm hb'
          · intro x hx
            rcases List.mem_cons.mp hx with rfl | hx
            · exact hl
            · exact hl.trans (hlt x hx)
      subst hkk
      have hbb : b = b' := by simpa [read_cons] using e k
      subst hbb
      congr 1
      refine ih hm hm' fun a => ?_
      by_cases hak : a = k
      · subst hak; rw [read_of_lt hlt, read_of_lt hlt']
      · simpa [read_cons, hak] using e a

/-- An access has no invalid address when it is empty or ends at or below 0xFFF; otherwise the first invalid address is
`max(a, 0x1000)`. -/
theorem firstInvalid_eq (a n : Nat) :
    firstInvalid a n = if n = 0 ∨ a + n ≤ 0x1000 then none else some (max a 0x1000) := by
  induction n generalizing a with
  | zero => simp [firstInvalid]
  | succ n ih =>
    simp only [firstInvalid, ih, maxAddress]
    by_cases ha : a ≤ 0xFFF
    · simp only [ha, if_true]
      by_cases hn : n = 0
      · subst hn; simp; omega
      · by_cases hle : a + 1 + n ≤ 0x1000
        · simp [hn, hle]; omega
        · have : ¬ (a + (n + 1) ≤ 0x1000) := by omega
          simp only [hn, hle, this, false_or, if_false, Nat.succ_ne_zero]
          congr 1
          omega
    · have : ¬ (a + (n + 1) ≤ 0x1000) := by omega
      simp only [ha, this, if_false, false_or, Nat.succ_ne_zero]
      congr 1
      omega

end Sys2Proof.Laws
end

