-- ==== Sys2Proof/Laws/State.lean ====
section
/-! SUPPORT. What each update of the state does to each field, and reading a register, a slot or a key after a write. -/

namespace Sys2Proof.Laws

open Sys2Proof Sys2Proof.Machine

@[simp] theorem writeV_mem (s : State) (r : Reg) (b : Byte) : (writeV s r b).mem = s.mem := rfl
@[simp] theorem writeV_v (s : State) (r : Reg) (b : Byte) : (writeV s r b).v = s.v.set r b := rfl
@[simp] theorem writeV_i (s : State) (r : Reg) (b : Byte) : (writeV s r b).i = s.i := rfl
@[simp] theorem writeV_pc (s : State) (r : Reg) (b : Byte) : (writeV s r b).pc = s.pc := rfl
@[simp] theorem writeV_sp (s : State) (r : Reg) (b : Byte) : (writeV s r b).sp = s.sp := rfl
@[simp] theorem writeV_stack (s : State) (r : Reg) (b : Byte) : (writeV s r b).stack = s.stack := rfl
@[simp] theorem writeV_dt (s : State) (r : Reg) (b : Byte) : (writeV s r b).dt = s.dt := rfl
@[simp] theorem writeV_st (s : State) (r : Reg) (b : Byte) : (writeV s r b).st = s.st := rfl
@[simp] theorem writeV_fb (s : State) (r : Reg) (b : Byte) : (writeV s r b).fb = s.fb := rfl
@[simp] theorem writeV_keys (s : State) (r : Reg) (b : Byte) : (writeV s r b).keys = s.keys := rfl
@[simp] theorem writeV_aw (s : State) (r : Reg) (b : Byte) : (writeV s r b).aw = s.aw := rfl
@[simp] theorem writeV_kp (s : State) (r : Reg) (b : Byte) : (writeV s r b).kp = s.kp := rfl
@[simp] theorem writeV_draws (s : State) (r : Reg) (b : Byte) : (writeV s r b).draws = s.draws := rfl

@[simp] theorem setI_mem (s : State) (a : Word) : (setI s a).mem = s.mem := rfl
@[simp] theorem setI_v (s : State) (a : Word) : (setI s a).v = s.v := rfl
@[simp] theorem setI_i (s : State) (a : Word) : (setI s a).i = a := rfl
@[simp] theorem setI_pc (s : State) (a : Word) : (setI s a).pc = s.pc := rfl
@[simp] theorem setI_sp (s : State) (a : Word) : (setI s a).sp = s.sp := rfl
@[simp] theorem setI_stack (s : State) (a : Word) : (setI s a).stack = s.stack := rfl
@[simp] theorem setI_dt (s : State) (a : Word) : (setI s a).dt = s.dt := rfl
@[simp] theorem setI_st (s : State) (a : Word) : (setI s a).st = s.st := rfl
@[simp] theorem setI_fb (s : State) (a : Word) : (setI s a).fb = s.fb := rfl
@[simp] theorem setI_keys (s : State) (a : Word) : (setI s a).keys = s.keys := rfl
@[simp] theorem setI_aw (s : State) (a : Word) : (setI s a).aw = s.aw := rfl
@[simp] theorem setI_kp (s : State) (a : Word) : (setI s a).kp = s.kp := rfl
@[simp] theorem setI_draws (s : State) (a : Word) : (setI s a).draws = s.draws := rfl

@[simp] theorem setPc_mem (s : State) (a : Word) : (setPc s a).mem = s.mem := rfl
@[simp] theorem setPc_v (s : State) (a : Word) : (setPc s a).v = s.v := rfl
@[simp] theorem setPc_i (s : State) (a : Word) : (setPc s a).i = s.i := rfl
@[simp] theorem setPc_pc (s : State) (a : Word) : (setPc s a).pc = a := rfl
@[simp] theorem setPc_sp (s : State) (a : Word) : (setPc s a).sp = s.sp := rfl
@[simp] theorem setPc_stack (s : State) (a : Word) : (setPc s a).stack = s.stack := rfl
@[simp] theorem setPc_dt (s : State) (a : Word) : (setPc s a).dt = s.dt := rfl
@[simp] theorem setPc_st (s : State) (a : Word) : (setPc s a).st = s.st := rfl
@[simp] theorem setPc_fb (s : State) (a : Word) : (setPc s a).fb = s.fb := rfl
@[simp] theorem setPc_keys (s : State) (a : Word) : (setPc s a).keys = s.keys := rfl
@[simp] theorem setPc_aw (s : State) (a : Word) : (setPc s a).aw = s.aw := rfl
@[simp] theorem setPc_kp (s : State) (a : Word) : (setPc s a).kp = s.kp := rfl
@[simp] theorem setPc_draws (s : State) (a : Word) : (setPc s a).draws = s.draws := rfl

@[simp] theorem setDt_mem (s : State) (b : Byte) : (setDt s b).mem = s.mem := rfl
@[simp] theorem setDt_v (s : State) (b : Byte) : (setDt s b).v = s.v := rfl
@[simp] theorem setDt_i (s : State) (b : Byte) : (setDt s b).i = s.i := rfl
@[simp] theorem setDt_pc (s : State) (b : Byte) : (setDt s b).pc = s.pc := rfl
@[simp] theorem setDt_sp (s : State) (b : Byte) : (setDt s b).sp = s.sp := rfl
@[simp] theorem setDt_stack (s : State) (b : Byte) : (setDt s b).stack = s.stack := rfl
@[simp] theorem setDt_dt (s : State) (b : Byte) : (setDt s b).dt = b := rfl
@[simp] theorem setDt_st (s : State) (b : Byte) : (setDt s b).st = s.st := rfl
@[simp] theorem setDt_fb (s : State) (b : Byte) : (setDt s b).fb = s.fb := rfl
@[simp] theorem setDt_keys (s : State) (b : Byte) : (setDt s b).keys = s.keys := rfl
@[simp] theorem setDt_aw (s : State) (b : Byte) : (setDt s b).aw = s.aw := rfl
@[simp] theorem setDt_kp (s : State) (b : Byte) : (setDt s b).kp = s.kp := rfl
@[simp] theorem setDt_draws (s : State) (b : Byte) : (setDt s b).draws = s.draws := rfl

@[simp] theorem setSt_mem (s : State) (b : Byte) : (setSt s b).mem = s.mem := rfl
@[simp] theorem setSt_v (s : State) (b : Byte) : (setSt s b).v = s.v := rfl
@[simp] theorem setSt_i (s : State) (b : Byte) : (setSt s b).i = s.i := rfl
@[simp] theorem setSt_pc (s : State) (b : Byte) : (setSt s b).pc = s.pc := rfl
@[simp] theorem setSt_sp (s : State) (b : Byte) : (setSt s b).sp = s.sp := rfl
@[simp] theorem setSt_stack (s : State) (b : Byte) : (setSt s b).stack = s.stack := rfl
@[simp] theorem setSt_dt (s : State) (b : Byte) : (setSt s b).dt = s.dt := rfl
@[simp] theorem setSt_st (s : State) (b : Byte) : (setSt s b).st = b := rfl
@[simp] theorem setSt_fb (s : State) (b : Byte) : (setSt s b).fb = s.fb := rfl
@[simp] theorem setSt_keys (s : State) (b : Byte) : (setSt s b).keys = s.keys := rfl
@[simp] theorem setSt_aw (s : State) (b : Byte) : (setSt s b).aw = s.aw := rfl
@[simp] theorem setSt_kp (s : State) (b : Byte) : (setSt s b).kp = s.kp := rfl
@[simp] theorem setSt_draws (s : State) (b : Byte) : (setSt s b).draws = s.draws := rfl

@[simp] theorem setFb_mem (s : State) (f : Framebuffer) : (setFb s f).mem = s.mem := rfl
@[simp] theorem setFb_v (s : State) (f : Framebuffer) : (setFb s f).v = s.v := rfl
@[simp] theorem setFb_i (s : State) (f : Framebuffer) : (setFb s f).i = s.i := rfl
@[simp] theorem setFb_pc (s : State) (f : Framebuffer) : (setFb s f).pc = s.pc := rfl
@[simp] theorem setFb_sp (s : State) (f : Framebuffer) : (setFb s f).sp = s.sp := rfl
@[simp] theorem setFb_stack (s : State) (f : Framebuffer) : (setFb s f).stack = s.stack := rfl
@[simp] theorem setFb_dt (s : State) (f : Framebuffer) : (setFb s f).dt = s.dt := rfl
@[simp] theorem setFb_st (s : State) (f : Framebuffer) : (setFb s f).st = s.st := rfl
@[simp] theorem setFb_fb (s : State) (f : Framebuffer) : (setFb s f).fb = f := rfl
@[simp] theorem setFb_keys (s : State) (f : Framebuffer) : (setFb s f).keys = s.keys := rfl
@[simp] theorem setFb_aw (s : State) (f : Framebuffer) : (setFb s f).aw = s.aw := rfl
@[simp] theorem setFb_kp (s : State) (f : Framebuffer) : (setFb s f).kp = s.kp := rfl
@[simp] theorem setFb_draws (s : State) (f : Framebuffer) : (setFb s f).draws = s.draws := rfl

@[simp] theorem setKeyState_mem (s : State) (k : Key) (d : Bool) : (setKeyState s k d).mem = s.mem := rfl
@[simp] theorem setKeyState_v (s : State) (k : Key) (d : Bool) : (setKeyState s k d).v = s.v := rfl
@[simp] theorem setKeyState_i (s : State) (k : Key) (d : Bool) : (setKeyState s k d).i = s.i := rfl
@[simp] theorem setKeyState_pc (s : State) (k : Key) (d : Bool) : (setKeyState s k d).pc = s.pc := rfl
@[simp] theorem setKeyState_sp (s : State) (k : Key) (d : Bool) : (setKeyState s k d).sp = s.sp := rfl
@[simp] theorem setKeyState_stack (s : State) (k : Key) (d : Bool) : (setKeyState s k d).stack = s.stack := rfl
@[simp] theorem setKeyState_dt (s : State) (k : Key) (d : Bool) : (setKeyState s k d).dt = s.dt := rfl
@[simp] theorem setKeyState_st (s : State) (k : Key) (d : Bool) : (setKeyState s k d).st = s.st := rfl
@[simp] theorem setKeyState_fb (s : State) (k : Key) (d : Bool) : (setKeyState s k d).fb = s.fb := rfl
@[simp] theorem setKeyState_keys (s : State) (k : Key) (d : Bool) : (setKeyState s k d).keys = s.keys.set k d := rfl
@[simp] theorem setKeyState_aw (s : State) (k : Key) (d : Bool) : (setKeyState s k d).aw = s.aw := rfl
@[simp] theorem setKeyState_kp (s : State) (k : Key) (d : Bool) : (setKeyState s k d).kp = s.kp := rfl
@[simp] theorem setKeyState_draws (s : State) (k : Key) (d : Bool) : (setKeyState s k d).draws = s.draws := rfl

@[simp] theorem setAw_mem (s : State) (a : Option Reg) : (setAw s a).mem = s.mem := rfl
@[simp] theorem setAw_v (s : State) (a : Option Reg) : (setAw s a).v = s.v := rfl
@[simp] theorem setAw_i (s : State) (a : Option Reg) : (setAw s a).i = s.i := rfl
@[simp] theorem setAw_pc (s : State) (a : Option Reg) : (setAw s a).pc = s.pc := rfl
@[simp] theorem setAw_sp (s : State) (a : Option Reg) : (setAw s a).sp = s.sp := rfl
@[simp] theorem setAw_stack (s : State) (a : Option Reg) : (setAw s a).stack = s.stack := rfl
@[simp] theorem setAw_dt (s : State) (a : Option Reg) : (setAw s a).dt = s.dt := rfl
@[simp] theorem setAw_st (s : State) (a : Option Reg) : (setAw s a).st = s.st := rfl
@[simp] theorem setAw_fb (s : State) (a : Option Reg) : (setAw s a).fb = s.fb := rfl
@[simp] theorem setAw_keys (s : State) (a : Option Reg) : (setAw s a).keys = s.keys := rfl
@[simp] theorem setAw_aw (s : State) (a : Option Reg) : (setAw s a).aw = a := rfl
@[simp] theorem setAw_kp (s : State) (a : Option Reg) : (setAw s a).kp = s.kp := rfl
@[simp] theorem setAw_draws (s : State) (a : Option Reg) : (setAw s a).draws = s.draws := rfl

@[simp] theorem setKp_mem (s : State) (k : Option Key) : (setKp s k).mem = s.mem := rfl
@[simp] theorem setKp_v (s : State) (k : Option Key) : (setKp s k).v = s.v := rfl
@[simp] theorem setKp_i (s : State) (k : Option Key) : (setKp s k).i = s.i := rfl
@[simp] theorem setKp_pc (s : State) (k : Option Key) : (setKp s k).pc = s.pc := rfl
@[simp] theorem setKp_sp (s : State) (k : Option Key) : (setKp s k).sp = s.sp := rfl
@[simp] theorem setKp_stack (s : State) (k : Option Key) : (setKp s k).stack = s.stack := rfl
@[simp] theorem setKp_dt (s : State) (k : Option Key) : (setKp s k).dt = s.dt := rfl
@[simp] theorem setKp_st (s : State) (k : Option Key) : (setKp s k).st = s.st := rfl
@[simp] theorem setKp_fb (s : State) (k : Option Key) : (setKp s k).fb = s.fb := rfl
@[simp] theorem setKp_keys (s : State) (k : Option Key) : (setKp s k).keys = s.keys := rfl
@[simp] theorem setKp_aw (s : State) (k : Option Key) : (setKp s k).aw = s.aw := rfl
@[simp] theorem setKp_kp (s : State) (k : Option Key) : (setKp s k).kp = k := rfl
@[simp] theorem setKp_draws (s : State) (k : Option Key) : (setKp s k).draws = s.draws := rfl

@[simp] theorem setSp_mem (s : State) (n : Fin 16) : (setSp s n).mem = s.mem := rfl
@[simp] theorem setSp_v (s : State) (n : Fin 16) : (setSp s n).v = s.v := rfl
@[simp] theorem setSp_i (s : State) (n : Fin 16) : (setSp s n).i = s.i := rfl
@[simp] theorem setSp_pc (s : State) (n : Fin 16) : (setSp s n).pc = s.pc := rfl
@[simp] theorem setSp_sp (s : State) (n : Fin 16) : (setSp s n).sp = n := rfl
@[simp] theorem setSp_stack (s : State) (n : Fin 16) : (setSp s n).stack = s.stack := rfl
@[simp] theorem setSp_dt (s : State) (n : Fin 16) : (setSp s n).dt = s.dt := rfl
@[simp] theorem setSp_st (s : State) (n : Fin 16) : (setSp s n).st = s.st := rfl
@[simp] theorem setSp_fb (s : State) (n : Fin 16) : (setSp s n).fb = s.fb := rfl
@[simp] theorem setSp_keys (s : State) (n : Fin 16) : (setSp s n).keys = s.keys := rfl
@[simp] theorem setSp_aw (s : State) (n : Fin 16) : (setSp s n).aw = s.aw := rfl
@[simp] theorem setSp_kp (s : State) (n : Fin 16) : (setSp s n).kp = s.kp := rfl
@[simp] theorem setSp_draws (s : State) (n : Fin 16) : (setSp s n).draws = s.draws := rfl

@[simp] theorem setSlot_mem (s : State) (j : Fin 16) (a : Word) : (setSlot s j a).mem = s.mem := rfl
@[simp] theorem setSlot_v (s : State) (j : Fin 16) (a : Word) : (setSlot s j a).v = s.v := rfl
@[simp] theorem setSlot_i (s : State) (j : Fin 16) (a : Word) : (setSlot s j a).i = s.i := rfl
@[simp] theorem setSlot_pc (s : State) (j : Fin 16) (a : Word) : (setSlot s j a).pc = s.pc := rfl
@[simp] theorem setSlot_sp (s : State) (j : Fin 16) (a : Word) : (setSlot s j a).sp = s.sp := rfl
@[simp] theorem setSlot_stack (s : State) (j : Fin 16) (a : Word) : (setSlot s j a).stack = s.stack.set j a := rfl
@[simp] theorem setSlot_dt (s : State) (j : Fin 16) (a : Word) : (setSlot s j a).dt = s.dt := rfl
@[simp] theorem setSlot_st (s : State) (j : Fin 16) (a : Word) : (setSlot s j a).st = s.st := rfl
@[simp] theorem setSlot_fb (s : State) (j : Fin 16) (a : Word) : (setSlot s j a).fb = s.fb := rfl
@[simp] theorem setSlot_keys (s : State) (j : Fin 16) (a : Word) : (setSlot s j a).keys = s.keys := rfl
@[simp] theorem setSlot_aw (s : State) (j : Fin 16) (a : Word) : (setSlot s j a).aw = s.aw := rfl
@[simp] theorem setSlot_kp (s : State) (j : Fin 16) (a : Word) : (setSlot s j a).kp = s.kp := rfl
@[simp] theorem setSlot_draws (s : State) (j : Fin 16) (a : Word) : (setSlot s j a).draws = s.draws := rfl

@[simp] theorem setMem_mem (s : State) (m : Memory) : (setMem s m).mem = m := rfl
@[simp] theorem setMem_v (s : State) (m : Memory) : (setMem s m).v = s.v := rfl
@[simp] theorem setMem_i (s : State) (m : Memory) : (setMem s m).i = s.i := rfl
@[simp] theorem setMem_pc (s : State) (m : Memory) : (setMem s m).pc = s.pc := rfl
@[simp] theorem setMem_sp (s : State) (m : Memory) : (setMem s m).sp = s.sp := rfl
@[simp] theorem setMem_stack (s : State) (m : Memory) : (setMem s m).stack = s.stack := rfl
@[simp] theorem setMem_dt (s : State) (m : Memory) : (setMem s m).dt = s.dt := rfl
@[simp] theorem setMem_st (s : State) (m : Memory) : (setMem s m).st = s.st := rfl
@[simp] theorem setMem_fb (s : State) (m : Memory) : (setMem s m).fb = s.fb := rfl
@[simp] theorem setMem_keys (s : State) (m : Memory) : (setMem s m).keys = s.keys := rfl
@[simp] theorem setMem_aw (s : State) (m : Memory) : (setMem s m).aw = s.aw := rfl
@[simp] theorem setMem_kp (s : State) (m : Memory) : (setMem s m).kp = s.kp := rfl
@[simp] theorem setMem_draws (s : State) (m : Memory) : (setMem s m).draws = s.draws := rfl

@[simp] theorem countDraw_mem (s : State) : (countDraw s).mem = s.mem := rfl
@[simp] theorem countDraw_v (s : State) : (countDraw s).v = s.v := rfl
@[simp] theorem countDraw_i (s : State) : (countDraw s).i = s.i := rfl
@[simp] theorem countDraw_pc (s : State) : (countDraw s).pc = s.pc := rfl
@[simp] theorem countDraw_sp (s : State) : (countDraw s).sp = s.sp := rfl
@[simp] theorem countDraw_stack (s : State) : (countDraw s).stack = s.stack := rfl
@[simp] theorem countDraw_dt (s : State) : (countDraw s).dt = s.dt := rfl
@[simp] theorem countDraw_st (s : State) : (countDraw s).st = s.st := rfl
@[simp] theorem countDraw_fb (s : State) : (countDraw s).fb = s.fb := rfl
@[simp] theorem countDraw_keys (s : State) : (countDraw s).keys = s.keys := rfl
@[simp] theorem countDraw_aw (s : State) : (countDraw s).aw = s.aw := rfl
@[simp] theorem countDraw_kp (s : State) : (countDraw s).kp = s.kp := rfl
@[simp] theorem countDraw_draws (s : State) : (countDraw s).draws = s.draws + 1 := rfl

@[simp] theorem advance_mem (s : State) : (advance s).mem = s.mem := rfl
@[simp] theorem advance_v (s : State) : (advance s).v = s.v := rfl
@[simp] theorem advance_i (s : State) : (advance s).i = s.i := rfl
@[simp] theorem advance_pc (s : State) : (advance s).pc = s.pc + 2 := rfl
@[simp] theorem advance_sp (s : State) : (advance s).sp = s.sp := rfl
@[simp] theorem advance_stack (s : State) : (advance s).stack = s.stack := rfl
@[simp] theorem advance_dt (s : State) : (advance s).dt = s.dt := rfl
@[simp] theorem advance_st (s : State) : (advance s).st = s.st := rfl
@[simp] theorem advance_fb (s : State) : (advance s).fb = s.fb := rfl
@[simp] theorem advance_keys (s : State) : (advance s).keys = s.keys := rfl
@[simp] theorem advance_aw (s : State) : (advance s).aw = s.aw := rfl
@[simp] theorem advance_kp (s : State) : (advance s).kp = s.kp := rfl
@[simp] theorem advance_draws (s : State) : (advance s).draws = s.draws := rfl

@[simp] theorem skipIf_mem (s : State) (c : Bool) : (skipIf s c).mem = s.mem := by cases c <;> rfl
@[simp] theorem skipIf_v (s : State) (c : Bool) : (skipIf s c).v = s.v := by cases c <;> rfl
@[simp] theorem skipIf_i (s : State) (c : Bool) : (skipIf s c).i = s.i := by cases c <;> rfl
@[simp] theorem skipIf_sp (s : State) (c : Bool) : (skipIf s c).sp = s.sp := by cases c <;> rfl
@[simp] theorem skipIf_stack (s : State) (c : Bool) : (skipIf s c).stack = s.stack := by cases c <;> rfl
@[simp] theorem skipIf_dt (s : State) (c : Bool) : (skipIf s c).dt = s.dt := by cases c <;> rfl
@[simp] theorem skipIf_st (s : State) (c : Bool) : (skipIf s c).st = s.st := by cases c <;> rfl
@[simp] theorem skipIf_fb (s : State) (c : Bool) : (skipIf s c).fb = s.fb := by cases c <;> rfl
@[simp] theorem skipIf_keys (s : State) (c : Bool) : (skipIf s c).keys = s.keys := by cases c <;> rfl
@[simp] theorem skipIf_aw (s : State) (c : Bool) : (skipIf s c).aw = s.aw := by cases c <;> rfl
@[simp] theorem skipIf_kp (s : State) (c : Bool) : (skipIf s c).kp = s.kp := by cases c <;> rfl
@[simp] theorem skipIf_draws (s : State) (c : Bool) : (skipIf s c).draws = s.draws := by cases c <;> rfl
@[simp] theorem skipIf_pc (s : State) (c : Bool) : (skipIf s c).pc = if c then s.pc + 4 else s.pc + 2 := by cases c <;> rfl

@[simp] theorem readV_setI (s : State) (a : Word) (q : Reg) : readV (setI s a) q = readV s q := rfl
@[simp] theorem readV_setPc (s : State) (a : Word) (q : Reg) : readV (setPc s a) q = readV s q := rfl
@[simp] theorem readV_setDt (s : State) (b : Byte) (q : Reg) : readV (setDt s b) q = readV s q := rfl
@[simp] theorem readV_setSt (s : State) (b : Byte) (q : Reg) : readV (setSt s b) q = readV s q := rfl
@[simp] theorem readV_setFb (s : State) (f : Framebuffer) (q : Reg) : readV (setFb s f) q = readV s q := rfl
@[simp] theorem readV_setKeyState (s : State) (k : Key) (d : Bool) (q : Reg) : readV (setKeyState s k d) q = readV s q := rfl
@[simp] theorem readV_setAw (s : State) (a : Option Reg) (q : Reg) : readV (setAw s a) q = readV s q := rfl
@[simp] theorem readV_setKp (s : State) (k : Option Key) (q : Reg) : readV (setKp s k) q = readV s q := rfl
@[simp] theorem readV_setSp (s : State) (n : Fin 16) (q : Reg) : readV (setSp s n) q = readV s q := rfl
@[simp] theorem readV_setSlot (s : State) (j : Fin 16) (a : Word) (q : Reg) : readV (setSlot s j a) q = readV s q := rfl
@[simp] theorem readV_setMem (s : State) (m : Memory) (q : Reg) : readV (setMem s m) q = readV s q := rfl
@[simp] theorem readV_countDraw (s : State) (q : Reg) : readV (countDraw s) q = readV s q := rfl
@[simp] theorem readV_advance (s : State) (q : Reg) : readV (advance s) q = readV s q := rfl
@[simp] theorem readV_skipIf (s : State) (c : Bool) (q : Reg) : readV (skipIf s c) q = readV s q := by cases c <;> rfl

theorem readV_writeV (s : State) (r q : Reg) (b : Byte) :
    readV (writeV s r b) q = if q = r then b else readV s q := by
  simp only [readV, writeV, Fin.getElem_fin, Vector.getElem_set, Fin.ext_iff, eq_comm]

@[simp] theorem readV_writeV_same (s : State) (r : Reg) (b : Byte) : readV (writeV s r b) r = b := by
  simp [readV_writeV]

theorem readV_writeV_other (s : State) {r q : Reg} (b : Byte) (h : q ≠ r) :
    readV (writeV s r b) q = readV s q := by
  simp [readV_writeV, h]

theorem slot_setSlot (s : State) (j k : Fin 16) (a : Word) :
    (setSlot s j a).stack[k] = if k = j then a else s.stack[k] := by
  simp only [setSlot, Fin.getElem_fin, Vector.getElem_set, Fin.ext_iff, eq_comm]

theorem keyDown_setKeyState (s : State) (k l : Key) (d : Bool) :
    keyDown (setKeyState s k d) l = if l = k then d else keyDown s l := by
  simp only [keyDown, setKeyState, Fin.getElem_fin, Vector.getElem_set, Fin.ext_iff, eq_comm]

end Sys2Proof.Laws
end

