-- ==== Sys2Proof/Laws/Ops.lean ====
section
/-! SUPPORT. One lemma for each shared operation over the state, saying everything it can do: memory accesses, the stack,
register ranges, the key operand, the fetch. -/

namespace Sys2Proof.Laws

open Sys2Proof Sys2Proof.Machine

/-- A read answers the bytes when the access is empty or ends at or below 0xFFF, and the access's error otherwise. -/
theorem memRead_eq (s : State) (a n : Nat) :
    memRead s a n = match accessError s.pc a n with
      | some e => .error e
      | none => .ok (s.mem.readBytes a n) := by
  unfold memRead accessError
  rw [firstInvalid_eq]
  by_cases h : n = 0 ∨ a + n ≤ 0x1000
  · simp only [if_pos h]
  · simp only [if_neg h]

/-- A write stores all its bytes when the access is empty or ends at or below 0xFFF, and is the access's error otherwise. -/
theorem memWrite_eq (s : State) (a : Nat) (bytes : List Byte) :
    memWrite s a bytes = match accessError s.pc a bytes.length with
      | some e => .error e
      | none => .ok (setMem s (s.mem.writeBytes a bytes)) := by
  unfold memWrite accessError
  rw [firstInvalid_eq]
  by_cases h : bytes.length = 0 ∨ a + bytes.length ≤ 0x1000
  · simp only [if_pos h]
  · simp only [if_neg h]

theorem memRead_ok {s : State} {a n : Nat} (h : n = 0 ∨ a + n ≤ 0x1000) : memRead s a n = .ok (s.mem.readBytes a n) := by
  rw [memRead_eq, accessError, if_pos h]

theorem memRead_error {s : State} {a n : Nat} (h : ¬ (n = 0 ∨ a + n ≤ 0x1000)) :
    memRead s a n = .error (.addressOutOfRange s.pc (max a 0x1000)) := by
  rw [memRead_eq, accessError, if_neg h]

theorem memWrite_ok {s : State} {a : Nat} {bytes : List Byte} (h : bytes.length = 0 ∨ a + bytes.length ≤ 0x1000) :
    memWrite s a bytes = .ok (setMem s (s.mem.writeBytes a bytes)) := by
  rw [memWrite_eq, accessError, if_pos h]

theorem memWrite_error {s : State} {a : Nat} {bytes : List Byte}
    (h : ¬ (bytes.length = 0 ∨ a + bytes.length ≤ 0x1000)) :
    memWrite s a bytes = .error (.addressOutOfRange s.pc (max a 0x1000)) := by
  rw [memWrite_eq, accessError, if_neg h]

/-- An access that answers ends at or below 0xFFF, or is empty. -/
theorem accessError_none {pc : Word} {a n : Nat} : accessError pc a n = none ↔ n = 0 ∨ a + n ≤ 0x1000 := by
  unfold accessError; split <;> simp_all

theorem memWrite_ok_inv {s t : State} {a : Nat} {bytes : List Byte} (h : memWrite s a bytes = .ok t) :
    (bytes.length = 0 ∨ a + bytes.length ≤ 0x1000) ∧ t = setMem s (s.mem.writeBytes a bytes) := by
  by_cases hb : bytes.length = 0 ∨ a + bytes.length ≤ 0x1000
  · rw [memWrite_ok hb] at h
    exact ⟨hb, (Except.ok.inj h).symm⟩
  · rw [memWrite_error hb] at h
    cases h

/-- CALL's push: the error at SP = 15; else SP + 1 and the slot it then names. -/
theorem push_ok {s : State} {a : Word} (h : s.sp.val + 1 < 16) :
    push s a = .ok (setSlot (setSp s ⟨s.sp.val + 1, h⟩) ⟨s.sp.val + 1, h⟩ a) := dif_pos h

theorem push_error {s : State} {a : Word} (h : s.sp.val = 15) : push s a = .error (.stackOverflow s.pc) :=
  dif_neg (by omega)

theorem pop_ok {s : State} (h : s.sp.val ≠ 0) :
    pop s = .ok (setSp s ⟨s.sp.val - 1, by omega⟩, s.stack[s.sp]) := if_neg h

theorem pop_error {s : State} (h : s.sp.val = 0) : pop s = .error (.stackUnderflow s.pc) := if_pos h

@[simp] theorem length_registersUpTo (s : State) (x : Reg) : (registersUpTo s x).length = x.val + 1 := by
  simp [registersUpTo]

theorem getElem_registersUpTo (s : State) (x r : Reg) (h : r.val < (registersUpTo s x).length) :
    (registersUpTo s x)[r.val] = readV s r := by
  simp [registersUpTo, readV]

/-- Loading bytes from register `k` on: register `r` gets its byte if one is loaded there, and keeps its value otherwise. -/
theorem readV_loadRegisters (bs : List Byte) (k : Nat) (s : State) (r : Reg) :
    readV (loadRegisters bs k s) r = if k ≤ r.val then bs.getD (r.val - k) (readV s r) else readV s r := by
  induction bs generalizing k s with
  | nil => simp [loadRegisters]
  | cons b bs ih =>
    rw [loadRegisters]
    split
    · next hk =>
      rw [ih, readV_writeV]
      rcases Nat.lt_trichotomy r.val k with h | h | h
      · have h1 : ¬ k + 1 ≤ r.val := by omega
        have h2 : ¬ k ≤ r.val := by omega
        have h3 : r ≠ ⟨k, hk⟩ := by rintro rfl; simp at h
        simp [h1, h2, h3]
      · have h3 : r = ⟨k, hk⟩ := Fin.ext h
        subst h3
        simp
      · have h1 : k + 1 ≤ r.val := h
        have h2 : k ≤ r.val := by omega
        have h3 : r ≠ ⟨k, hk⟩ := by rintro rfl; simp at h
        obtain ⟨d, hd⟩ : ∃ d, r.val - k = d + 1 := ⟨r.val - k - 1, by omega⟩
        have hd' : r.val - (k + 1) = d := by omega
        simp [h1, h2, h3, hd, hd']
    · next hk =>
      have : ¬ k ≤ r.val := by have := r.isLt; omega
      simp [this]

/-- Loading registers touches nothing but the registers. -/
theorem loadRegisters_eq (bs : List Byte) (k : Nat) (s : State) :
    loadRegisters bs k s = { s with v := (loadRegisters bs k s).v } := by
  induction bs generalizing k s with
  | nil => rfl
  | cons b bs ih =>
    rw [loadRegisters]
    split
    · conv_lhs => rw [ih]
      rfl
    · rfl

theorem keyOperand_ok {s : State} {x : Reg} (h : (readV s x).toNat < 16) :
    keyOperand s x = .ok ⟨(readV s x).toNat, h⟩ := dif_pos h

theorem keyOperand_error {s : State} {x : Reg} (h : ¬ (readV s x).toNat < 16) :
    keyOperand s x = .error (.invalidKeyIndex s.pc (readV s x)) := dif_neg h

theorem toNat_wordOfBytes (hi lo : Byte) : (wordOfBytes hi lo).toNat = 256 * hi.toNat + lo.toNat := by
  have := lo.isLt
  simp only [wordOfBytes, BitVec.toNat_append]
  rw [Nat.shiftLeft_eq, Nat.or_comm, ← Nat.mul_comm (2 ^ 8)]
  rw [Nat.or_comm, ← Nat.two_pow_add_eq_or_of_lt this]

/-- The fetch: the word at pc, or the error of a read of two bytes there. -/
theorem fetchWord_ok {s : State} (h : s.pc.toNat ≤ 0xFFE) : fetchWord s = .ok (wordAtPc s) := by
  rw [fetchWord, memRead_ok (.inr (by omega))]
  refine congrArg Except.ok (BitVec.eq_of_toNat_eq ?_)
  have h1 := (s.mem.read s.pc.toNat).isLt
  have h2 := (s.mem.read (s.pc.toNat + 1)).isLt
  have e : s.mem.readBytes s.pc.toNat 2 = [s.mem.read s.pc.toNat, s.mem.read (s.pc.toNat + 1)] := rfl
  rw [e]
  simp only [List.getD_cons_zero, List.getD_cons_succ, toNat_wordOfBytes, wordAtPc, BitVec.toNat_ofNat]
  omega

theorem fetchWord_error {s : State} (h : ¬ s.pc.toNat ≤ 0xFFE) :
    fetchWord s = .error (.addressOutOfRange s.pc (max s.pc.toNat 0x1000)) := by
  rw [fetchWord, memRead_error (by omega)]

/-- An instruction is fetched exactly when pc is at most 0xFFE and the word there decodes to it. -/
theorem fetchInstr_ok_iff {s : State} {i : Instr} :
    fetchInstr s = .ok i ↔ s.pc.toNat ≤ 0xFFE ∧ decodeWord (wordAtPc s) = some i := by
  by_cases h : s.pc.toNat ≤ 0xFFE
  · rw [fetchInstr, fetchWord_ok h]
    simp only [h, true_and]
    split <;> simp_all
  · rw [fetchInstr, fetchWord_error h]
    simp [h]

/-- A word stored at an address is the word fetched there. -/
theorem wordAtPc_storeWord {s : State} (h : s.mem.wf) {a w : Word} (ha : a.toNat ≤ 0xFFE) :
    wordAtPc { s with mem := storeWord s.mem a.toNat w, pc := a } = w := by
  have hle : ([hiByte w, loByte w] : List Byte) = [] ∨ a.toNat + ([hiByte w, loByte w] : List Byte).length ≤ 0x1000 :=
    .inr (by simp; omega)
  have h0 : (storeWord s.mem a.toNat w).read a.toNat = hiByte w := read_writeBytes h hle (k := 0) (by simp)
  have h1 : (storeWord s.mem a.toNat w).read (a.toNat + 1) = loByte w := read_writeBytes h hle (k := 1) (by simp)
  refine BitVec.eq_of_toNat_eq ?_
  have hw := w.isLt
  simp only [wordAtPc, h0, h1, hiByte, loByte, BitVec.toNat_ofNat, BitVec.extractLsb'_toNat, Nat.shiftRight_eq_div_pow]
  omega

end Sys2Proof.Laws
end

