-- ==== Sys2Proof/Laws/PerInstr.lean ====
section
/-! SUPPORT. A fact about every instruction as syntax, one lemma per constructor: its encoded word fits its row of the
opcode map, and the fields the row reads from that word are the instruction's own. -/

namespace Sys2Proof.Laws

open Sys2Proof

/-- The word the encoder gives a well-formed instruction is accepted by a row of the map that builds the instruction back. -/
def EncodingFits.Statement (i : Instr) : Prop :=
  i.WellFormed = true → ∃ r ∈ opcodeTable, r.accepts (encode i) = true ∧ r.build (encode i) = i

theorem EncodingFits.at_row (k : Fin opcodeTable.length) {i : Instr} (accepts : opcodeTable[k].accepts (encode i) = true)
    (builds : i.WellFormed = true → opcodeTable[k].build (encode i) = i) : EncodingFits.Statement i :=
  fun h => ⟨opcodeTable[k], List.getElem_mem _, accepts, builds h⟩

theorem accepts_of {r : OpcodeRow} {w : Word} (h : w &&& r.mask = r.value) : r.accepts w = true := by
  simpa [OpcodeRow.accepts] using h

theorem EncodingFits.cls : EncodingFits.Statement (.cls) :=
  EncodingFits.at_row ⟨0, by decide⟩ rfl (fun _ => rfl)

theorem EncodingFits.ret : EncodingFits.Statement (.ret) :=
  EncodingFits.at_row ⟨1, by decide⟩ rfl (fun _ => rfl)

theorem EncodingFits.jp (nnn : Addr12) : EncodingFits.Statement (.jp nnn) :=
  EncodingFits.at_row ⟨2, by decide⟩ (accepts_of (formNNN_and_F000 _ nnn)) (fun _ => congrArg Instr.jp (fieldNNN_formNNN _ nnn))

theorem EncodingFits.call (nnn : Addr12) : EncodingFits.Statement (.call nnn) :=
  EncodingFits.at_row ⟨3, by decide⟩ (accepts_of (formNNN_and_F000 _ nnn)) (fun _ => congrArg Instr.call (fieldNNN_formNNN _ nnn))

theorem EncodingFits.seByte (x : Reg) (kk : Byte) : EncodingFits.Statement (.seByte x kk) :=
  EncodingFits.at_row ⟨4, by decide⟩ (accepts_of (formXKK_and_F000 _ x kk)) (fun _ => congrArg₂ Instr.seByte (fieldX_formXKK _ x kk) (fieldKK_formXKK _ x kk))

theorem EncodingFits.sneByte (x : Reg) (kk : Byte) : EncodingFits.Statement (.sneByte x kk) :=
  EncodingFits.at_row ⟨5, by decide⟩ (accepts_of (formXKK_and_F000 _ x kk)) (fun _ => congrArg₂ Instr.sneByte (fieldX_formXKK _ x kk) (fieldKK_formXKK _ x kk))

theorem EncodingFits.seReg (x y : Reg) : EncodingFits.Statement (.seReg x y) :=
  EncodingFits.at_row ⟨6, by decide⟩ (accepts_of (formXYN_and_F00F _ x y _)) (fun _ => congrArg₂ Instr.seReg (fieldX_formXYN _ x y _) (fieldY_formXYN _ x y _))

theorem EncodingFits.ldByte (x : Reg) (kk : Byte) : EncodingFits.Statement (.ldByte x kk) :=
  EncodingFits.at_row ⟨7, by decide⟩ (accepts_of (formXKK_and_F000 _ x kk)) (fun _ => congrArg₂ Instr.ldByte (fieldX_formXKK _ x kk) (fieldKK_formXKK _ x kk))

theorem EncodingFits.addByte (x : Reg) (kk : Byte) : EncodingFits.Statement (.addByte x kk) :=
  EncodingFits.at_row ⟨8, by decide⟩ (accepts_of (formXKK_and_F000 _ x kk)) (fun _ => congrArg₂ Instr.addByte (fieldX_formXKK _ x kk) (fieldKK_formXKK _ x kk))

theorem EncodingFits.ldReg (x y : Reg) : EncodingFits.Statement (.ldReg x y) :=
  EncodingFits.at_row ⟨9, by decide⟩ (accepts_of (formXYN_and_F00F _ x y _)) (fun _ => congrArg₂ Instr.ldReg (fieldX_formXYN _ x y _) (fieldY_formXYN _ x y _))

theorem EncodingFits.or (x y : Reg) : EncodingFits.Statement (.or x y) :=
  EncodingFits.at_row ⟨10, by decide⟩ (accepts_of (formXYN_and_F00F _ x y _)) (fun _ => congrArg₂ Instr.or (fieldX_formXYN _ x y _) (fieldY_formXYN _ x y _))

theorem EncodingFits.and (x y : Reg) : EncodingFits.Statement (.and x y) :=
  EncodingFits.at_row ⟨11, by decide⟩ (accepts_of (formXYN_and_F00F _ x y _)) (fun _ => congrArg₂ Instr.and (fieldX_formXYN _ x y _) (fieldY_formXYN _ x y _))

theorem EncodingFits.xor (x y : Reg) : EncodingFits.Statement (.xor x y) :=
  EncodingFits.at_row ⟨12, by decide⟩ (accepts_of (formXYN_and_F00F _ x y _)) (fun _ => congrArg₂ Instr.xor (fieldX_formXYN _ x y _) (fieldY_formXYN _ x y _))

theorem EncodingFits.addReg (x y : Reg) : EncodingFits.Statement (.addReg x y) :=
  EncodingFits.at_row ⟨13, by decide⟩ (accepts_of (formXYN_and_F00F _ x y _)) (fun _ => congrArg₂ Instr.addReg (fieldX_formXYN _ x y _) (fieldY_formXYN _ x y _))

theorem EncodingFits.sub (x y : Reg) : EncodingFits.Statement (.sub x y) :=
  EncodingFits.at_row ⟨14, by decide⟩ (accepts_of (formXYN_and_F00F _ x y _)) (fun _ => congrArg₂ Instr.sub (fieldX_formXYN _ x y _) (fieldY_formXYN _ x y _))

theorem EncodingFits.shr (x y : Reg) : EncodingFits.Statement (.shr x y) :=
  EncodingFits.at_row ⟨15, by decide⟩ (accepts_of (formXYN_and_F00F _ x y _)) (fun _ => congrArg₂ Instr.shr (fieldX_formXYN _ x y _) (fieldY_formXYN _ x y _))

theorem EncodingFits.subn (x y : Reg) : EncodingFits.Statement (.subn x y) :=
  EncodingFits.at_row ⟨16, by decide⟩ (accepts_of (formXYN_and_F00F _ x y _)) (fun _ => congrArg₂ Instr.subn (fieldX_formXYN _ x y _) (fieldY_formXYN _ x y _))

theorem EncodingFits.shl (x y : Reg) : EncodingFits.Statement (.shl x y) :=
  EncodingFits.at_row ⟨17, by decide⟩ (accepts_of (formXYN_and_F00F _ x y _)) (fun _ => congrArg₂ Instr.shl (fieldX_formXYN _ x y _) (fieldY_formXYN _ x y _))

theorem EncodingFits.sneReg (x y : Reg) : EncodingFits.Statement (.sneReg x y) :=
  EncodingFits.at_row ⟨18, by decide⟩ (accepts_of (formXYN_and_F00F _ x y _)) (fun _ => congrArg₂ Instr.sneReg (fieldX_formXYN _ x y _) (fieldY_formXYN _ x y _))

theorem EncodingFits.ldI (nnn : Addr12) : EncodingFits.Statement (.ldI nnn) :=
  EncodingFits.at_row ⟨19, by decide⟩ (accepts_of (formNNN_and_F000 _ nnn)) (fun _ => congrArg Instr.ldI (fieldNNN_formNNN _ nnn))

theorem EncodingFits.jpV0 (nnn : Addr12) : EncodingFits.Statement (.jpV0 nnn) :=
  EncodingFits.at_row ⟨20, by decide⟩ (accepts_of (formNNN_and_F000 _ nnn)) (fun _ => congrArg Instr.jpV0 (fieldNNN_formNNN _ nnn))

theorem EncodingFits.rnd (x : Reg) (kk : Byte) : EncodingFits.Statement (.rnd x kk) :=
  EncodingFits.at_row ⟨21, by decide⟩ (accepts_of (formXKK_and_F000 _ x kk)) (fun _ => congrArg₂ Instr.rnd (fieldX_formXKK _ x kk) (fieldKK_formXKK _ x kk))

theorem EncodingFits.drw (x y : Reg) (n : Nat) : EncodingFits.Statement (.drw x y n) :=
  EncodingFits.at_row ⟨22, by decide⟩ (accepts_of (formXYN_and_F000 _ x y _)) fun h => by
    have hn : n ≤ 15 := by simpa [Instr.WellFormed] using h
    show Instr.drw (fieldX _) (fieldY _) (fieldN _) = _
    rw [encode, fieldX_formXYN, fieldY_formXYN, fieldN_formXYN, BitVec.toNat_ofNat, Nat.mod_eq_of_lt (by omega)]

theorem EncodingFits.skp (x : Reg) : EncodingFits.Statement (.skp x) :=
  EncodingFits.at_row ⟨23, by decide⟩ (accepts_of (formXKK_and_F0FF _ x _)) (fun _ => congrArg Instr.skp (fieldX_formXKK _ x _))

theorem EncodingFits.sknp (x : Reg) : EncodingFits.Statement (.sknp x) :=
  EncodingFits.at_row ⟨24, by decide⟩ (accepts_of (formXKK_and_F0FF _ x _)) (fun _ => congrArg Instr.sknp (fieldX_formXKK _ x _))

theorem EncodingFits.ldVxDt (x : Reg) : EncodingFits.Statement (.ldVxDt x) :=
  EncodingFits.at_row ⟨25, by decide⟩ (accepts_of (formXKK_and_F0FF _ x _)) (fun _ => congrArg Instr.ldVxDt (fieldX_formXKK _ x _))

theorem EncodingFits.ldVxK (x : Reg) : EncodingFits.Statement (.ldVxK x) :=
  EncodingFits.at_row ⟨26, by decide⟩ (accepts_of (formXKK_and_F0FF _ x _)) (fun _ => congrArg Instr.ldVxK (fieldX_formXKK _ x _))

theorem EncodingFits.ldDtVx (x : Reg) : EncodingFits.Statement (.ldDtVx x) :=
  EncodingFits.at_row ⟨27, by decide⟩ (accepts_of (formXKK_and_F0FF _ x _)) (fun _ => congrArg Instr.ldDtVx (fieldX_formXKK _ x _))

theorem EncodingFits.ldStVx (x : Reg) : EncodingFits.Statement (.ldStVx x) :=
  EncodingFits.at_row ⟨28, by decide⟩ (accepts_of (formXKK_and_F0FF _ x _)) (fun _ => congrArg Instr.ldStVx (fieldX_formXKK _ x _))

theorem EncodingFits.addI (x : Reg) : EncodingFits.Statement (.addI x) :=
  EncodingFits.at_row ⟨29, by decide⟩ (accepts_of (formXKK_and_F0FF _ x _)) (fun _ => congrArg Instr.addI (fieldX_formXKK _ x _))

theorem EncodingFits.ldF (x : Reg) : EncodingFits.Statement (.ldF x) :=
  EncodingFits.at_row ⟨30, by decide⟩ (accepts_of (formXKK_and_F0FF _ x _)) (fun _ => congrArg Instr.ldF (fieldX_formXKK _ x _))

theorem EncodingFits.ldB (x : Reg) : EncodingFits.Statement (.ldB x) :=
  EncodingFits.at_row ⟨31, by decide⟩ (accepts_of (formXKK_and_F0FF _ x _)) (fun _ => congrArg Instr.ldB (fieldX_formXKK _ x _))

theorem EncodingFits.storeRegs (x : Reg) : EncodingFits.Statement (.storeRegs x) :=
  EncodingFits.at_row ⟨32, by decide⟩ (accepts_of (formXKK_and_F0FF _ x _)) (fun _ => congrArg Instr.storeRegs (fieldX_formXKK _ x _))

theorem EncodingFits.loadRegs (x : Reg) : EncodingFits.Statement (.loadRegs x) :=
  EncodingFits.at_row ⟨33, by decide⟩ (accepts_of (formXKK_and_F0FF _ x _)) (fun _ => congrArg Instr.loadRegs (fieldX_formXKK _ x _))

end Sys2Proof.Laws
end

