-- ==== Sys2Proof/Laws/Steps.lean ====
section
/-! SUPPORT. Frames of the update shapes the instructions have, and one lemma for each remaining shared operation: the skip, the
operand values, the flags, the wait step, the latch, the timer tick, runs of actions, the masks of the opcode map on any word. -/

namespace Sys2Proof.Laws

open Sys2Proof Sys2Proof.Machine

/-! ## Frames -/

/-- An update of registers and pc alone has the frame that lists those registers. -/
theorem frame_of_regs {w : Writes} {s t : State} (regs : ∀ r, r ∉ w.regs → readV t r = readV s r)
    (rest : t = { s with v := t.v, pc := t.pc }) : Frame w s t := by
  rw [rest] at regs ⊢
  exact ⟨regs, fun _ => rfl, fun _ => rfl, fun _ _ => rfl, fun _ => rfl, fun _ => rfl, fun _ => rfl, rfl, fun _ => rfl,
    fun _ => rfl, fun _ => rfl, fun _ _ => rfl⟩

theorem frame_setPc (w : Writes) (s : State) (p : Word) : Frame w s (setPc s p) :=
  frame_of_regs (fun _ _ => rfl) rfl

theorem frame_skipIf (w : Writes) (s : State) (c : Bool) : Frame w s (skipIf s c) := by
  cases c <;> exact frame_setPc w s _

theorem frame_writeV {w : Writes} (s : State) {x : Reg} (b : Byte) (p : Word) (hx : x ∈ w.regs) :
    Frame w s (setPc (writeV s x b) p) :=
  frame_of_regs (fun r hr => by rw [readV_setPc, readV_writeV_other]; rintro rfl; exact hr hx) rfl

theorem frame_writeResultAndFlag {w : Writes} (s : State) {x : Reg} (b f : Byte) (p : Word) (hx : x ∈ w.regs)
    (hf : vf ∈ w.regs) : Frame w s (setPc (writeResultAndFlag s x b f) p) :=
  frame_of_regs (fun r hr => by
    rw [readV_setPc, writeResultAndFlag, readV_writeV_other _ _ (by rintro rfl; exact hr hf),
      readV_writeV_other _ _ (by rintro rfl; exact hr hx)]) rfl

theorem frame_setI (s : State) (a p : Word) : Frame { index := true } s (setPc (setI s a) p) :=
  ⟨fun _ _ => rfl, (fun h => nomatch h), fun _ => rfl, fun _ _ => rfl, fun _ => rfl, fun _ => rfl, fun _ => rfl, rfl,
    fun _ => rfl, fun _ => rfl, fun _ => rfl, fun _ _ => rfl⟩

theorem frame_setMem {s : State} {m : Memory} {l : List Nat} (p : Word) (h : ∀ a, a ∉ l → m.read a = s.mem.read a) :
    Frame { bytes := l } s (setPc (setMem s m) p) :=
  ⟨fun _ _ => rfl, fun _ => rfl, fun _ => rfl, fun _ _ => rfl, fun _ => rfl, fun _ => rfl, fun _ => rfl, rfl,
    fun _ => rfl, fun _ => rfl, fun _ => rfl, h⟩

theorem not_mem_addressRange {a n c : Nat} (h : c ∉ addressRange a n) : c < a ∨ a + n ≤ c := by
  by_contra hc
  exact h (by simp only [addressRange, List.mem_map, List.mem_range]; exact ⟨c - a, by omega, by omega⟩)

theorem mem_nextSlots (s : State) (j : Fin 16) : j ∈ nextSlots s ↔ j.val = s.sp.val + 1 := by simp [nextSlots]

theorem mem_regsUpTo (x r : Reg) : r ∈ regsUpTo x ↔ r ≤ x := by simp [regsUpTo]

/-! ## Operand values and flags -/

theorem toNat_addrWord (nnn : Addr12) : (addrWord nnn).toNat = nnn.toNat := by
  have := nnn.isLt
  simp [addrWord]
  omega

theorem toNat_offsetTarget (s : State) (nnn : Addr12) : (offsetTarget s nnn).toNat = (readV s 0).toNat + nnn.toNat := by
  have := nnn.isLt
  have := (readV s 0).isLt
  simp only [offsetTarget, BitVec.toNat_ofNat]
  omega

theorem toNat_glyphAddress (b : Byte) : (glyphAddress b).toNat = 5 * (b.toNat % 16) := by
  have h : (b &&& 0x0F).toNat = b.toNat % 16 := by
    rw [BitVec.toNat_and]; exact Nat.and_two_pow_sub_one_eq_mod b.toNat 4
  simp only [glyphAddress, h, fontBase, fontGlyphBytes, BitVec.toNat_ofNat]
  omega

@[simp] theorem toNat_flagByte (b : Bool) : (flagByte b).toNat = b.toNat := by cases b <;> rfl

/-- What register `r` holds after V0..Vx are loaded from memory at `a`. -/
theorem readV_loadRegisters_readBytes (s : State) (m : Memory) (a : Nat) (x r : Reg) :
    readV (loadRegisters (m.readBytes a (x.val + 1)) 0 s) r = if r ≤ x then m.read (a + r.val) else readV s r := by
  rw [readV_loadRegisters]
  simp only [Nat.zero_le, if_true, Nat.sub_zero, Fin.le_def]
  by_cases h : r.val ≤ x.val
  · have hr : r.val < (m.readBytes a (x.val + 1)).length := by simp; omega
    rw [if_pos h, List.getD_eq_getElem _ _ hr, getElem_readBytes]
  · have hr : (m.readBytes a (x.val + 1)).length ≤ r.val := by simp; omega
    rw [if_neg h, List.getD_eq_default _ _ hr]

/-! ## The wait step and the host's operations -/

theorem waitStep_of_none {r : Reg} {s : State} (h : s.kp = none) : waitStep r s = s := by simp [waitStep, h]

theorem waitStep_of_some {r : Reg} {s : State} {k : Key} (h : s.kp = some k) :
    waitStep r s = advance (setKp (setAw (writeV s r (BitVec.ofNat 8 k.val)) none) none) := by simp [waitStep, h]

/-- Everything the latch can do: KP, and nothing else. -/
theorem latchPress_eq (s : State) (k : Key) (down : Bool) :
    latchPress s k down = setKp s (if down && s.aw.isSome && s.kp.isNone then some k else s.kp) := by
  unfold latchPress
  split <;> rfl

theorem toNat_tickDown (b : Byte) : (tickDown b).toNat = b.toNat - 1 := by
  have hb := b.isLt
  unfold tickDown
  split
  · next h => subst h; rfl
  · next h =>
    have : b.toNat ≠ 0 := fun e => h (BitVec.eq_of_toNat_eq e)
    rw [BitVec.toNat_sub]
    simp
    omega

theorem initial_of_ge {a : Nat} (h : 80 ≤ a) : Memory.initial a = 0 := by
  simp only [Memory.initial, fontBase, Nat.zero_le, if_true, Nat.sub_zero]
  rw [List.getD_eq_default]
  exact h

theorem wf_reset : Memory.wf State.reset.mem := by simp [State.reset, Memory.wf]

/-! ## Runs of actions -/

@[simp] theorem after_nil (s : State) : after [] s = s := rfl

@[simp] theorem after_cons (a : Action) (rest : List Action) (s : State) :
    after (a :: rest) s = after rest (settle s (perform a s)) := rfl

/-- What every action of a run keeps, the run keeps. -/
theorem after_induct {P : State → Prop} {actions : List Action} (keep : ∀ a ∈ actions, ∀ s, P s → P (settle s (perform a s)))
    {s : State} (h : P s) : P (after actions s) := by
  induction actions generalizing s with
  | nil => exact h
  | cons a rest ih =>
    exact ih (fun b hb => keep b (List.mem_cons_of_mem a hb)) (keep a List.mem_cons_self s h)

/-- The checks of a step look at no timer and no key state. -/
theorem stepError_timers_keys (s : State) (dt st : Byte) (keys : Vector Bool 16) :
    stepError { s with dt := dt, st := st, keys := keys } = stepError s := by
  unfold stepError
  show (if _ then _ else if _ then _ else _) = (if _ then _ else if _ then _ else _)
  rw [show wordAtPc { s with dt := dt, st := st, keys := keys } = wordAtPc s from rfl]
  cases decodeWord (wordAtPc s) with
  | none => rfl
  | some i => cases i <;> rfl

/-- Outside a key wait a host action other than `load` and `new` changes timers and key states only. -/
theorem settle_perform_host {a : Action} {s : State} (wait : s.aw = none) (host : a ≠ .step) (h : isLoadOrNew a = false) :
    ∃ dt st keys, settle s (perform a s) = { s with dt := dt, st := st, keys := keys } := by
  cases a with
  | new font => cases h
  | load bytes => cases h
  | step => exact absurd rfl host
  | tickTimers => exact ⟨_, _, _, rfl⟩
  | setKey k down =>
    simp only [perform, setKey]
    split
    · refine ⟨s.dt, s.st, (setKeyState s ⟨k, ‹_›⟩ down).keys, ?_⟩
      simp [settle, latchPress, setKeyState, wait]
    · exact ⟨_, _, _, rfl⟩
  | snapshot => exact ⟨_, _, _, rfl⟩
  | read x y =>
    simp only [perform, hostRead]
    split <;> exact ⟨_, _, _, rfl⟩

/-! ## The masks of the opcode map on any word -/

theorem wordOfBytes_hiByte_loByte (w : Word) : wordOfBytes (hiByte w) (loByte w) = w := by
  apply BitVec.eq_of_toNat_eq
  have := w.isLt
  rw [toNat_wordOfBytes]
  simp only [hiByte, loByte, BitVec.extractLsb'_toNat, Nat.shiftRight_eq_div_pow]
  omega

/-- Every word is the word its fields op, x and kk make. -/
theorem formXKK_fields (w : Word) : formXKK (fieldOp w) (fieldX w) (fieldKK w) = w := by
  apply BitVec.eq_of_toNat_eq
  have := w.isLt
  rw [toNat_formXKK, toNat_fieldOp, val_fieldX, toNat_fieldKK]
  omega

/-- Every word is the word its four nibbles make. -/
theorem formXYN_fields (w : Word) : formXYN (fieldOp w) (fieldX w) (fieldY w) (BitVec.ofNat 4 (fieldN w)) = w := by
  apply BitVec.eq_of_toNat_eq
  have := w.isLt
  rw [toNat_formXYN, toNat_fieldOp, val_fieldX, val_fieldY, BitVec.toNat_ofNat, fieldN_eq]
  omega

theorem toNat_and_F000 (w : Word) : (w &&& 0xF000).toNat = w.toNat / 4096 * 4096 := by
  have e := congrArg BitVec.toNat (formXKK_and_F000 (fieldOp w) (fieldX w) (fieldKK w))
  rw [formXKK_fields, toNat_formXKK, toNat_fieldOp] at e
  have := w.isLt
  rw [e]
  simp
  omega

theorem toNat_and_F0FF (w : Word) : (w &&& 0xF0FF).toNat = w.toNat / 4096 * 4096 + w.toNat % 256 := by
  have e := congrArg BitVec.toNat (formXKK_and_F0FF (fieldOp w) (fieldX w) (fieldKK w))
  rw [formXKK_fields, toNat_formXKK, toNat_fieldOp, toNat_fieldKK] at e
  have := w.isLt
  rw [e]
  simp
  omega

theorem toNat_and_F00F (w : Word) : (w &&& 0xF00F).toNat = w.toNat / 4096 * 4096 + w.toNat % 16 := by
  have e := congrArg BitVec.toNat (formXYN_and_F00F (fieldOp w) (fieldX w) (fieldY w) (BitVec.ofNat 4 (fieldN w)))
  rw [formXYN_fields, toNat_formXYN, toNat_fieldOp, BitVec.toNat_ofNat, fieldN_eq] at e
  have := w.isLt
  rw [e]
  simp
  omega

end Sys2Proof.Laws
end

