-- ==== Sys2Proof/Tests/Slice0.lean ====
section
/-! SUPPORT. Tests of one step each, their expected results taken from spec/95_test_vectors.md and the rules' own examples; the
decoding of words written out from the patterns; and for every statement with hypotheses a state and operands that meet them. -/

namespace Sys2Proof.Tests

open Sys2Proof Sys2Proof.Machine

/-- One field, or a few, of the next state; none after an error. -/
def view {α : Type} (o : Outcome) (f : State → α) : Option α :=
  match o with
  | .next t => some (f t)
  | .fault _ => none
  | .refused _ => none

/-- The error of an outcome. -/
def errorOf (o : Outcome) : Option Fault :=
  match o with
  | .next _ => none
  | .fault e => some e
  | .refused _ => none

/-- The reset state with some registers set. -/
def regs (l : List (Reg × Byte)) : State := l.foldl (fun s p => writeV s p.1 p.2) State.reset

/-- `s` with the bytes in memory. -/
def bytesAt (s : State) (a : Nat) (l : List Byte) : State := setMem s (s.mem.writeBytes a l)

/-- One step that executes the word. -/
def runWord (w : Nat) (s : State) : Outcome := step (s.withFetchWord 16 w)

/-- The pixel (x, y), by numbers. -/
def pixelAt (t : State) (x : Fin 64) (y : Fin 32) : Bool := t.fb.pixel x y

/-! ## Well-formedness -/

theorem test_wellFormed_refuses_sixteen_rows : (Instr.drw 0 1 16).WellFormed = false := by decide
theorem test_wellFormed_accepts_fifteen_rows : (Instr.drw 0 1 15).WellFormed = true := by decide

/-! ## Decoding: words written from the patterns of 30_encoding.md R73 -/

theorem test_decode_cls : decodeWord 0x00E0 = some .cls := by decide
theorem test_decode_ret : decodeWord 0x00EE = some .ret := by decide
theorem test_decode_jp : decodeWord 0x1ABC = some (.jp 0xABC) := by decide
theorem test_decode_call : decodeWord 0x2ABC = some (.call 0xABC) := by decide
theorem test_decode_seByte : decodeWord 0x3005 = some (.seByte 0 5) := by decide
theorem test_decode_sneByte : decodeWord 0x4311 = some (.sneByte 3 0x11) := by decide
theorem test_decode_seReg : decodeWord 0x5120 = some (.seReg 1 2) := by decide
theorem test_decode_ldByte : decodeWord 0x6A7B = some (.ldByte 0xA 0x7B) := by decide
theorem test_decode_addByte : decodeWord 0x7201 = some (.addByte 2 1) := by decide
theorem test_decode_ldReg : decodeWord 0x8120 = some (.ldReg 1 2) := by decide
theorem test_decode_or : decodeWord 0x8121 = some (.or 1 2) := by decide
theorem test_decode_and : decodeWord 0x8122 = some (.and 1 2) := by decide
theorem test_decode_xor : decodeWord 0x8123 = some (.xor 1 2) := by decide
theorem test_decode_addReg : decodeWord 0x8124 = some (.addReg 1 2) := by decide
theorem test_decode_sub : decodeWord 0x8125 = some (.sub 1 2) := by decide
theorem test_decode_shr : decodeWord 0x8126 = some (.shr 1 2) := by decide
theorem test_decode_subn : decodeWord 0x8127 = some (.subn 1 2) := by decide
theorem test_decode_shl : decodeWord 0x812E = some (.shl 1 2) := by decide
theorem test_decode_sneReg : decodeWord 0x9120 = some (.sneReg 1 2) := by decide
theorem test_decode_ldI : decodeWord 0xA123 = some (.ldI 0x123) := by decide
theorem test_decode_jpV0 : decodeWord 0xB300 = some (.jpV0 0x300) := by decide
theorem test_decode_rnd : decodeWord 0xC30F = some (.rnd 3 0x0F) := by decide
theorem test_decode_drw : decodeWord 0xD235 = some (.drw 2 3 5) := by decide
theorem test_decode_skp : decodeWord 0xE49E = some (.skp 4) := by decide
theorem test_decode_sknp : decodeWord 0xE4A1 = some (.sknp 4) := by decide
theorem test_decode_ldVxDt : decodeWord 0xF507 = some (.ldVxDt 5) := by decide
theorem test_decode_ldVxK : decodeWord 0xF30A = some (.ldVxK 3) := by decide
theorem test_decode_ldDtVx : decodeWord 0xF515 = some (.ldDtVx 5) := by decide
theorem test_decode_ldStVx : decodeWord 0xF518 = some (.ldStVx 5) := by decide
theorem test_decode_addI : decodeWord 0xF51E = some (.addI 5) := by decide
theorem test_decode_ldF : decodeWord 0xF029 = some (.ldF 0) := by decide
theorem test_decode_ldB : decodeWord 0xF533 = some (.ldB 5) := by decide
theorem test_decode_storeRegs : decodeWord 0xF255 = some (.storeRegs 2) := by decide
theorem test_decode_loadRegs : decodeWord 0xF365 = some (.loadRegs 3) := by decide

/-- Words that match no pattern: W10, C-12, C-16, A-25, M-17, T-17. -/
theorem test_decode_invalid :
    [0x0001, 0x0123, 0x0000, 0x00E1, 0x00FF, 0x5121, 0x912F, 0x8008, 0x800D, 0x800F, 0xF000, 0xF0FF, 0xF01F, 0xE0A2,
      0xE09F].all (fun w => (decodeWord w).isNone) = true := by decide

theorem test_decodeTableWord : decodeTableWord 16 0x8124 = some (.addReg 1 2) := by decide
theorem test_encode_drw : encode (.drw 2 3 5) = 0xD235 := by decide

/-! ## Display -/

/-- D-1: VF is kept. -/
theorem test_cls : view (runWord 0x00E0 (setFb (regs [(vf, 0x33)]) (Framebuffer.clear.setPixel 5 6 true)))
    (fun t => (pixelAt t 5 6, readV t vf, t.pc)) = some (false, 0x33, 0x202) := by decide

/-- W9: columns 64 to 67 wrap to 0 to 3. -/
theorem test_drw_wraps_columns :
    view (runWord 0xD011 (setI (bytesAt (regs [(0, 60)]) 0x300 [0xFF]) 0x300))
      (fun t => ([pixelAt t 59 0, pixelAt t 60 0, pixelAt t 63 0, pixelAt t 0 0, pixelAt t 3 0, pixelAt t 4 0], readV t vf)) =
      some ([false, true, true, true, true, false], 0) := by decide

/-- D-10: one pixel clears (collision), its unlit-bit neighbour stays. -/
theorem test_drw_collides :
    view (runWord 0xD011 (setFb (setI (bytesAt State.reset 0x300 [0xAA]) 0x300)
        ((Framebuffer.clear.setPixel 0 0 true).setPixel 1 0 true)))
      (fun t => (pixelAt t 0 0, pixelAt t 1 0, pixelAt t 2 0, pixelAt t 4 0, readV t vf)) =
      some (false, true, true, true, 1) := by decide

/-- D-6: no rows, so I is not checked and VF is 0. -/
theorem test_drw_no_rows :
    view (runWord 0xD010 (setI (regs [(vf, 1)]) 0x1234)) (fun t => (readV t vf, t.pc)) = some (0, 0x202) := by decide

/-- D-7. -/
theorem test_drw_beyond_memory :
    errorOf (runWord 0xD012 (setI State.reset 0xFFF)) = some (.addressOutOfRange 0x200 0x1000) := by decide

/-! ## Control flow -/

/-- C-6: the slot keeps its value. -/
theorem test_ret :
    view (runWord 0x00EE (setSlot (setSp State.reset 2) 2 0x456)) (fun t => (t.pc, t.sp, t.stack[2])) =
      some (0x456, 1, 0x456) := by decide
/-- C-5. -/
theorem test_ret_empty : errorOf (runWord 0x00EE State.reset) = some (.stackUnderflow 0x200) := by decide
/-- C-3. -/
theorem test_call : view (runWord 0x2ABC State.reset) (fun t => (t.pc, t.sp, t.stack[1], t.stack[0])) =
    some (0xABC, 1, 0x202, 0) := by decide
/-- C-4. -/
theorem test_call_full : errorOf (runWord 0x2ABC (setSp State.reset 15)) = some (.stackOverflow 0x200) := by decide
/-- C-1. -/
theorem test_jp : view (runWord 0x1ABC State.reset) (fun t => t.pc) = some 0xABC := by decide
/-- C-8: no wrap. -/
theorem test_jpV0 : view (runWord 0xBFFF (regs [(0, 0xFF)])) (fun t => t.pc) = some 0x10FE := by decide
/-- W7. -/
theorem test_seByte : view (runWord 0x3005 (regs [(0, 5)])) (fun t => t.pc) = some 0x204 := by decide
/-- C-13: a skip from 0xFFE leaves memory without an error. -/
theorem test_seByte_at_the_end : view (runWord 0x3000 (setPc State.reset 0xFFE)) (fun t => t.pc) = some 0x1002 := by decide
/-- C-10. -/
theorem test_sneByte : view (runWord 0x4342 (regs [(3, 0x42)])) (fun t => t.pc) = some 0x202 := by decide
/-- C-11. -/
theorem test_seReg : view (runWord 0x5120 (regs [(1, 7), (2, 7)])) (fun t => t.pc) = some 0x204 := by decide
/-- C-11. -/
theorem test_sneReg : view (runWord 0x9120 (regs [(1, 7), (2, 7)])) (fun t => t.pc) = some 0x202 := by decide

/-! ## Loads and ALU -/

/-- A-1. -/
theorem test_ldByte : view (runWord 0x6A7B State.reset) (fun t => (readV t 0xA, t.pc)) = some (0x7B, 0x202) := by decide
/-- A-2: no carry flag. -/
theorem test_addByte : view (runWord 0x7201 (regs [(2, 0xFF), (vf, 0x5A)])) (fun t => (readV t 2, readV t vf)) =
    some (0x00, 0x5A) := by decide
/-- A-22. -/
theorem test_ldReg : view (runWord 0x8010 (regs [(1, 0x42)])) (fun t => readV t 0) = some 0x42 := by decide
/-- A-20. -/
theorem test_or : view (runWord 0x8011 (regs [(0, 0xF0), (1, 0x0F), (vf, 0x77)])) (fun t => (readV t 0, readV t vf)) =
    some (0xFF, 0x77) := by decide
/-- R146's example. -/
theorem test_and : view (runWord 0x8012 (regs [(0, 0xF0), (1, 0x3C), (vf, 0x77)])) (fun t => (readV t 0, readV t vf)) =
    some (0x30, 0x77) := by decide
/-- R147's example. -/
theorem test_xor : view (runWord 0x8013 (regs [(0, 0xFF), (1, 0x0F), (vf, 0x77)])) (fun t => (readV t 0, readV t vf)) =
    some (0xF0, 0x77) := by decide
/-- W2. -/
theorem test_addReg : view (runWord 0x8014 (regs [(0, 0xFF), (1, 0x01)])) (fun t => (readV t 0, readV t vf)) =
    some (0x00, 1) := by decide
/-- A-18: with y = F the operand is the old VF. -/
theorem test_addReg_from_vf : view (runWord 0x81F4 (regs [(1, 0x10), (vf, 0x20)])) (fun t => (readV t 1, readV t vf)) =
    some (0x30, 0) := by decide
/-- W4. -/
theorem test_sub : view (runWord 0x8015 (regs [(0, 0x01), (1, 0x02)])) (fun t => (readV t 0, readV t vf)) =
    some (0xFF, 0) := by decide
/-- A-6: equal operands are no borrow. -/
theorem test_sub_equal : view (runWord 0x8015 (regs [(0, 0x05), (1, 0x05)])) (fun t => (readV t 0, readV t vf)) =
    some (0x00, 1) := by decide
/-- A-11: V1 is ignored. -/
theorem test_shr : view (runWord 0x8016 (regs [(0, 0xFF)])) (fun t => (readV t 0, readV t vf)) = some (0x7F, 1) := by decide
/-- A-16: with x = F the flag stays. -/
theorem test_shr_vf : view (runWord 0x8F06 (regs [(vf, 0x02)])) (fun t => readV t vf) = some 0 := by decide
/-- A-8. -/
theorem test_subn : view (runWord 0x8017 (regs [(0, 0x02), (1, 0x01)])) (fun t => (readV t 0, readV t vf)) =
    some (0xFF, 0) := by decide
/-- A-9. -/
theorem test_subn_no_borrow : view (runWord 0x8017 (regs [(0, 0x01), (1, 0x03)])) (fun t => (readV t 0, readV t vf)) =
    some (0x02, 1) := by decide
/-- A-14: y = E is ignored. -/
theorem test_shl : view (runWord 0x80EE (regs [(0, 0x7F)])) (fun t => (readV t 0, readV t vf)) = some (0xFE, 0) := by decide
/-- A-17: with x = F the flag stays. -/
theorem test_shl_vf : view (runWord 0x8F0E (regs [(vf, 0x81)])) (fun t => readV t vf) = some 1 := by decide
/-- A-24: whatever the draw, the mask 0 gives 0. -/
theorem test_rnd_mask_zero (s : State) : view (exec (.rnd 3 0x00) s) (fun t => readV t 3) = some 0 := by
  show some (readV (advance (writeV _ 3 (Config.randomByte s.draws &&& 0))) 3) = some 0
  rw [show Config.randomByte s.draws &&& (0 : Byte) = 0 from BitVec.and_zero]
  simp [readV, writeV, advance, setPc]
theorem test_rnd_counts : view (exec (.rnd 3 0x0F) State.reset) (fun t => (t.draws, t.pc)) = some (1, 0x202) := by decide

/-! ## Index register and memory -/

/-- M-1. -/
theorem test_ldI : view (runWord 0xA123 State.reset) (fun t => t.i) = some 0x123 := by decide
/-- M-3: I wraps at 16 bits. -/
theorem test_addI_wraps : view (runWord 0xF01E (setI (regs [(0, 2)]) 0xFFFF)) (fun t => (t.i, readV t vf)) =
    some (0x0001, 0) := by decide
/-- M-2: I beyond memory is legal. -/
theorem test_addI_beyond_memory : view (runWord 0xF01E (setI (regs [(0, 5)]) 0xFFE)) (fun t => t.i) = some 0x1003 := by decide
/-- M-4: the low nibble only. -/
theorem test_ldF : view (runWord 0xF029 (regs [(0, 0x1A)])) (fun t => t.i) = some 0x032 := by decide
/-- M-6. -/
theorem test_ldB : view (runWord 0xF533 (setI (regs [(5, 255)]) 0x300))
    (fun t => (t.mem.readBytes 0x300 3, t.i)) = some ([2, 5, 5], 0x300) := by decide
/-- M-9: nothing is written. -/
theorem test_ldB_beyond_memory : errorOf (runWord 0xF533 (setI State.reset 0xFFE)) = some (.addressOutOfRange 0x200 0x1000) := by
  decide
/-- M-10. -/
theorem test_storeRegs : view (runWord 0xF255 (setI (regs [(0, 1), (1, 2), (2, 3), (3, 4)]) 0x300))
    (fun t => (t.mem.readBytes 0x300 4, t.i)) = some ([1, 2, 3, 0], 0x300) := by decide
/-- M-11. -/
theorem test_storeRegs_beyond_memory :
    errorOf (runWord 0xFF55 (setI State.reset 0xFF8)) = some (.addressOutOfRange 0x200 0x1000) := by decide
/-- M-13. -/
theorem test_loadRegs : view (runWord 0xF365 (setI (bytesAt (regs [(4, 5)]) 0x300 [9, 8, 7, 6, 1]) 0x300))
    (fun t => (readV t 0, readV t 1, readV t 2, readV t 3, readV t 4)) = some (9, 8, 7, 6, 5) := by decide
/-- M-15: the glyph of 0. -/
theorem test_loadRegs_font : view (runWord 0xF465 State.reset)
    (fun t => (readV t 0, readV t 1, readV t 4)) = some (0xF0, 0x90, 0xF0) := by decide

/-! ## Timers and keypad -/

/-- T-1. -/
theorem test_ldVxDt : view (runWord 0xF507 (setDt State.reset 0x3C)) (fun t => (readV t 5, t.dt)) = some (0x3C, 0x3C) := by decide
/-- T-2. -/
theorem test_ldDtVx : view (runWord 0xF515 (regs [(5, 0x10)])) (fun t => (t.dt, t.st)) = some (0x10, 0) := by decide
/-- T-3. -/
theorem test_ldStVx : view (runWord 0xF518 (regs [(5, 0x10)])) (fun t => (t.dt, t.st)) = some (0, 0x10) := by decide
/-- T-6. -/
theorem test_skp : view (runWord 0xE09E (setKeyState (regs [(0, 4)]) 4 true)) (fun t => t.pc) = some 0x204 := by decide
/-- T-8. -/
theorem test_skp_no_such_key : errorOf (runWord 0xE09E (regs [(0, 0x10)])) = some (.invalidKeyIndex 0x200 0x10) := by decide
/-- T-6. -/
theorem test_sknp_down : view (runWord 0xE0A1 (setKeyState (regs [(0, 4)]) 4 true)) (fun t => t.pc) = some 0x202 := by decide
/-- T-7. -/
theorem test_sknp_up : view (runWord 0xE0A1 (regs [(0, 4)])) (fun t => t.pc) = some 0x204 := by decide
/-- T-9. -/
theorem test_ldVxK : view (runWord 0xF30A State.reset) (fun t => (t.aw, t.pc)) = some (some 3, 0x200) := by decide
/-- T-11, the completing step. -/
theorem test_wait_completes : view (step (setKp (setAw State.reset (some 3)) (some 9)))
    (fun t => (readV t 3, t.aw, t.kp, t.pc)) = some (9, none, none, 0x202) := by decide

/-! ## Fetch, the host's operations and reset -/

/-- C-14. -/
theorem test_fetch_at_last_byte : errorOf (step (setPc State.reset 0xFFF)) = some (.addressOutOfRange 0xFFF 0x1000) := by decide
/-- C-8, the second step. -/
theorem test_fetch_beyond_memory : errorOf (step (setPc State.reset 0x10FE)) = some (.addressOutOfRange 0x10FE 0x10FE) := by
  decide
/-- C-15: an odd pc is fetched like any other, big-endian. -/
theorem test_fetch_odd : view (step (bytesAt (setPc State.reset 0x201) 0x201 [0x60, 0x05])) (fun t => (readV t 0, t.pc)) =
    some (5, 0x203) := by decide
/-- E-1. -/
theorem test_step_before_load : errorOf (step State.reset) = some (.invalidOpcode 0x200 0x0000) := by decide
/-- T-4 and T-5. -/
theorem test_tick : view (perform .tickTimers (setSt (setDt State.reset 1) 0)) (fun t => (t.dt, t.st)) = some (0, 0) := by decide
/-- T-11, the press. -/
theorem test_setKey_during_wait : view (perform (.setKey 9 true) (setAw State.reset (some 3))) (fun t => (t.kp, t.keys[9])) =
    some (some 9, true) := by decide
/-- T-14. -/
theorem test_setKey_outside_wait : view (perform (.setKey 1 true) State.reset) (fun t => (t.kp, t.keys[1])) =
    some (none, true) := by decide
/-- E-4: pc is unchanged. -/
theorem test_load : view (perform (.load [0x12, 0x00]) (setPc State.reset 0x300)) (fun t => (t.mem.readBytes 0x200 3, t.pc)) =
    some ([0x12, 0x00, 0x00], 0x300) := by decide
/-- W13: one byte too many. -/
theorem test_load_too_long : errorOf (perform (.load (List.replicate 3585 0)) State.reset) = some (.loadError 3585) := by
  have h : (List.replicate 3585 (0 : Byte)).length = 3585 := List.length_replicate
  simp only [perform, load, h]
  rfl
/-- D-11. -/
theorem test_read_outside : errorOf (perform (.read 64 0) State.reset) = some (.outOfRangePixel 64 0) := by decide
/-- W14: the last byte of the font and the first after it. -/
theorem test_reset_font : State.reset.mem.readBytes 0x04B 6 = [0xF0, 0x80, 0xF0, 0x80, 0x80, 0x00] := by decide
theorem test_memory_canonical : Memory.write (Memory.write [] 0x300 7) 0x300 0 = [] := by decide

/-! ## Witnesses: states and operands that meet the hypotheses of the statements -/

/-- The state in which the word at pc is `w`. -/
def atWord (w : Nat) : State := State.reset.withFetchWord 16 w

theorem witness_EncodedInstructionDecodesToItself : (Instr.drw 15 15 15).WellFormed = true := by decide
theorem witness_DecodedWordEncodesToItself : decodeWord 0xDFFF = some (.drw 15 15 15) := by decide
theorem witness_OnePatternAtMostMatchesAWord :
    ∃ r, r ∈ opcodeTable ∧ (0x00E0 : Word) &&& r.mask = r.value :=
  ⟨⟨0xFFFF, 0x00E0, fun _ => .cls⟩, List.Mem.head _, by decide⟩

theorem witness_StepFetchesDecodesAndExecutes_wait : (setAw State.reset (some 3)).aw = some 3 := by decide
theorem witness_StepFetchesDecodesAndExecutes_beyond :
    (setPc State.reset 0x1000).aw = none ∧ 0xFFF < (setPc State.reset 0x1000).pc.toNat := by decide
theorem witness_StepFetchesDecodesAndExecutes_last :
    (setPc State.reset 0xFFF).aw = none ∧ (setPc State.reset 0xFFF).pc.toNat = 0xFFF := by decide
theorem witness_StepFetchesDecodesAndExecutes_invalid :
    State.reset.aw = none ∧ State.reset.pc.toNat ≤ 0xFFE ∧ decodeWord (wordAtPc State.reset) = none := by decide
theorem witness_StepFetchesDecodesAndExecutes_valid :
    ((setPc State.reset 0xFFE).withFetchWord 16 0x00E0).aw = none ∧
    ((setPc State.reset 0xFFE).withFetchWord 16 0x00E0).pc.toNat = 0xFFE ∧
    decodeWord (wordAtPc ((setPc State.reset 0xFFE).withFetchWord 16 0x00E0)) = some .cls := by decide
theorem witness_StepFetchesDecodesAndExecutes_error :
    errorOf (step State.reset) = some (.invalidOpcode 0x200 0) := by decide

theorem witness_StepReportsTheFirstFailingCheck :
    stepError (atWord 0x00E0) = none ∧ stepError (setPc State.reset 0xFFF) = some (.addressOutOfRange 0xFFF 0x1000) ∧
    stepError State.reset = some (.invalidOpcode 0x200 0) ∧ stepError (atWord 0x00EE) = some (.stackUnderflow 0x200) := by decide
theorem witness_InstructionCompletesOrRaisesItsOwnError :
    ownError State.reset .ret = some (.stackUnderflow 0x200) ∧ ownError State.reset .cls = none ∧
    ownError (setI State.reset 0xFF1) (.storeRegs 15) = some (.addressOutOfRange 0x200 0x1000) ∧
    ownError (setI State.reset 0xFF0) (.storeRegs 15) = none := by decide
theorem witness_ActionErrorsAreExactlyTheseAndRepeat :
    actionError (.read 63 31) State.reset = none ∧ actionError (.read 64 0) State.reset = some (.outOfRangePixel 64 0) ∧
    actionError (.read 0 32) State.reset = some (.outOfRangePixel 0 32) ∧ actionError .step (atWord 0x00E0) = none ∧
    outsideInterface (.setKey 15 true) = false ∧ outsideInterface (.setKey 16 true) = true := by decide
theorem witness_ActionErrorsAreExactlyTheseAndRepeat_load :
    actionError (.load (List.replicate 3584 0)) State.reset = none ∧
    actionError (.load (List.replicate 3585 0)) State.reset = some (.loadError 3585) := by
  simp only [actionError, List.length_replicate]; decide
theorem witness_ActionErrorsAreExactlyTheseAndRepeat_repeats :
    errorOf (step State.reset) = some (.invalidOpcode 0x200 0) ∧
    (∀ a ∈ [.step, .setKey 5 true, .tickTimers, .snapshot, .read 64 0], isLoadOrNew a = false) ∧
    (after [.step, .setKey 5 true] State.reset).keys[5] = true := by decide
theorem witness_OnlyTheHostReadRaisesOutOfRangePixel :
    errorOf (perform (.read 0 32) State.reset) = some (.outOfRangePixel 0 32) := by decide
theorem witness_ReadAnswersBytesOrTheFirstInvalidAddress :
    (∀ k, k < 2 → 0xFFE + k ≤ 0xFFF) ∧
    (1 < 2 ∧ 0xFFF < 0xFFF + 1 ∧ ∀ j, j < 1 → 0xFFF + j ≤ 0xFFF) := by decide
theorem witness_StoreWritesAllBytesOrNone :
    State.reset.mem.wf ∧ (∀ k, k < [(1 : Byte), 2].length → 0xFFE + k ≤ 0xFFF) ∧
    (1 < [(1 : Byte), 2].length ∧ 0xFFF < 0xFFF + 1 ∧ ∀ j, j < 1 → 0xFFF + j ≤ 0xFFF) := by decide
theorem witness_ReadReturnsTheMostRecentWrite :
    Memory.wf [(0x300, 7), (0xFFF, 1)] ∧ (0x050 ≤ 0x050 ∧ 0x050 ≤ 0xFFF) ∧ (0x050 ≤ 0xFFF ∧ 0xFFF ≤ 0xFFF) := by decide
theorem witness_MemoriesThatReadAlikeAreEqual :
    Memory.wf (Memory.write [] 0x300 7) ∧ Memory.wf [(0x300, 7)] ∧
    (∀ a, (Memory.write [] 0x300 7).read a = Memory.read [(0x300, 7)] a) := by
  refine ⟨by decide, by decide, fun _ => rfl⟩

theorem witness_DrwFlipsExactlyTheSpritePixels :
    (Instr.drw 0 1 15).WellFormed = true ∧
    (15 = 0 ∨ (setI State.reset 0xFF1).i.toNat + 15 - 1 ≤ 0xFFF) ∧
    (0 < 15 ∧ 0xFFF < (setI State.reset 0xFF2).i.toNat + 15 - 1) := by decide
theorem witness_DrwFlipsExactlyTheSpritePixels_covered :
    SpriteCovers State.reset.mem 0 1 63 0 0 0 ∧ ¬ SpriteCovers State.reset.mem 0 0 63 0 0 0 := by
  refine ⟨⟨0, 1, by decide, by decide, by decide, by decide, by decide⟩, ?_⟩
  rintro ⟨r, b, hr, -⟩
  exact absurd hr (Nat.not_lt_zero r)
theorem witness_DrawingTwiceRestoresTheFramebuffer :
    (Instr.drw 0 1 5).WellFormed = true ∧ (0 : Reg) ≠ vf ∧ (1 : Reg) ≠ vf ∧
    (5 = 0 ∨ State.reset.i.toNat + 5 - 1 ≤ 0xFFF) := by decide
theorem witness_ToggleFlipsOnePixel : (64 ≤ 64 ∨ 32 ≤ 0) ∧ (63 < 64 ∧ 31 < 32) := by decide
theorem witness_ReadAndSnapshotReturnPixelsAndChangeNothing : (64 ≤ 0 ∨ 32 ≤ 32) ∧ (63 < 64 ∧ 31 < 32) := by decide

theorem witness_RetPopsTheReturnAddress : State.reset.sp.val = 0 ∧ 0 < (setSp State.reset 1).sp.val := by decide
theorem witness_CallPushesTheReturnAddress :
    (setSp State.reset 15).sp.val = 15 ∧ (setSp State.reset 14).sp.val < 15 := by decide
theorem witness_RetUndoesCall : (setSp State.reset 14).sp.val < 15 := by decide
theorem witness_SelfJumpChangesNothing :
    (atWord 0x1200).aw = none ∧ (atWord 0x1200).pc.toNat ≤ 0xFFE ∧
    (atWord 0x1200).pc.toNat = (0x200 : Addr12).toNat ∧ wordAtPc (atWord 0x1200) = encode (.jp 0x200) := by decide

theorem witness_AddRegWritesSumAndCarry : (0 : Reg) ≠ vf := by decide
theorem witness_SubAndSubnWriteDifferenceAndNoBorrow : (14 : Reg) ≠ vf := by decide
theorem witness_ShiftsWriteResultAndShiftedOutBit : (1 : Reg) ≠ vf := by decide

theorem witness_LdBStoresTheDecimalDigits :
    State.reset.mem.wf ∧ (setI State.reset 0xFFD).i.toNat + 2 ≤ 0xFFF ∧ 0xFFF < (setI State.reset 0xFFE).i.toNat + 2 := by decide
theorem witness_StoreRegsStoresV0ToVx :
    State.reset.mem.wf ∧ (setI State.reset 0xFF0).i.toNat + (15 : Reg).val ≤ 0xFFF ∧
    0xFFF < (setI State.reset 0xFF1).i.toNat + (15 : Reg).val := by decide
theorem witness_LoadRegsLoadsV0ToVx :
    (setI State.reset 0xFFF).i.toNat + (0 : Reg).val ≤ 0xFFF ∧
    0xFFF < (setI State.reset 0x1000).i.toNat + (0 : Reg).val := by decide
theorem witness_LoadRegsRestoresWhatStoreRegsStored :
    State.reset.mem.wf ∧ (setI State.reset 0xFF0).i.toNat + (15 : Reg).val ≤ 0xFFF := by decide
theorem witness_StoredCodeIsFetched :
    State.reset.mem.wf ∧ 1 ≤ (1 : Reg).val ∧ (setI State.reset 0xFFE).i.toNat + (1 : Reg).val ≤ 0xFFF ∧
    State.reset.aw = none := by decide
/-- The stored word itself decodes: V0 : V1 = 00 E0 stored at 0x300 is CLS (M-16's shape). -/
theorem witness_StoredCodeIsFetched_decodes :
    view (exec (.storeRegs 1) (setI (regs [(0, 0x00), (1, 0xE0)]) 0x300))
      (fun t => decodeWord (wordAtPc (setPc t 0x300))) = some (some .cls) := by decide

theorem witness_KeySkipsTestTheKeyInVx :
    15 < (readV (regs [(0, 16)]) 0).toNat ∧ (15 : Key).val = (readV (regs [(0, 15)]) 0).toNat := by decide
theorem witness_LdVxKBeginsTheWait : State.reset.kp = none := by decide
theorem witness_WaitStepEndsOnlyWithALatchedPress :
    (setAw State.reset (some 3)).aw = some 3 ∧ (setAw State.reset (some 3)).kp = none ∧
    (setKp (setAw State.reset (some 3)) (some 9)).kp = some 9 := by decide
theorem witness_FirstPressOfAWaitIsLatched :
    ((setAw State.reset (some 3)).aw ≠ none ∧ (setAw State.reset (some 3)).kp = none) ∧
    ((setKp (setAw State.reset (some 3)) (some 2)).aw ≠ none ∧ (setKp (setAw State.reset (some 3)) (some 2)).kp ≠ none) ∧
    State.reset.aw = none ∧ firstPress [(2, false), (2, true), (5, true)] = some 2 := by decide
theorem witness_NoProgressInAWaitWithoutAPress :
    (setAw State.reset (some 3)).aw ≠ none ∧ (setAw State.reset (some 3)).kp = none ∧ keepsWaiting (.setKey 2 false) = true ∧
    view (perform (.setKey 2 false) (setAw State.reset (some 3))) (fun t => t.kp) = some none := by decide

theorem witness_SetKeyWritesTheKeyAndTheLatch :
    15 < 16 ∧ 15 ≤ 15 ∧ (true = true ∧ (setAw State.reset (some 3)).aw ≠ none ∧ (setAw State.reset (some 3)).kp = none) ∧
    ¬ (true = true ∧ State.reset.aw ≠ none ∧ State.reset.kp = none) := by decide
theorem witness_LoadCopiesTheImage :
    State.reset.mem.wf ∧ 3584 < (List.replicate 3585 (0 : Byte)).length ∧ (List.replicate 3584 (0 : Byte)).length ≤ 3584 := by
  refine ⟨by decide, ?_, ?_⟩
  · rw [List.length_replicate]; decide
  · rw [List.length_replicate]
theorem witness_NewGivesEveryElementItsResetValue : 79 < 80 ∧ 80 ≤ 80 ∧ 80 ≤ 0xFFF := by decide
theorem witness_ResetIsNewWithTheDefaultFont :
    ∀ (d : Fin 16) (row : Fin 5),
      (Vector.mk defaultFont.toArray (by decide) : Vector Byte 80)[5 * d.val + row.val] = glyphByte d row := by decide
theorem witness_StepBeforeLoadIsInvalidOpcode :
    (State.reset.aw = none ∧ State.reset.pc = 0x200 ∧ State.reset.mem.read 0x200 = 0 ∧ State.reset.mem.read 0x201 = 0) ∧
    (∀ a ∈ [.step, .setKey 5 true, .tickTimers, .read 64 0], isLoad a = false) := by decide
theorem witness_PlacedWordIsTheNextInstruction : State.reset.mem.wf ∧ decodeWord 0x6A7B = some (.ldByte 0xA 0x7B) := by decide

theorem witness_InstructionWritesOnlyWhatItsRowLists : view (exec .cls State.reset) (fun t => t.pc) = some 0x202 := by decide
/-- Reset meets the invariant, and a step from there with a word placed answers a next state. -/
theorem witness_StepKeepsTheReachableStateInvariant :
    Inv (atWord 0x6A7B) ∧ view (step (atWord 0x6A7B)) (fun t => t.pc) = some 0x202 := by
  refine ⟨⟨by decide, by decide, by decide, ?_, by decide, by decide⟩, by decide⟩
  intro j h1 h2
  exact absurd (Nat.le_trans h1 h2) (by decide)
theorem witness_EveryActionKeepsTheReachableStateInvariant :
    Reachable State.reset ∧ view (perform (.load [0x60, 0x05]) State.reset) (fun t => t.pc) = some 0x200 := by
  exact ⟨.reset, by decide⟩

end Sys2Proof.Tests
end

section
/-! SUPPORT. What `exec` answers when an instruction that can fail completes, what each state operation may write, and the
frame of every instruction (spec 10_state.md R37). -/

namespace Sys2Proof.Proofs

open Sys2Proof Sys2Proof.Machine Sys2Proof.Laws

/-! ## Instructions that can fail: what they answer when they complete -/

theorem exec_ret_next {s t : State} (h : exec .ret s = .next t) :
    s.sp.val ≠ 0 ∧ t = setPc (setSp s ⟨s.sp.val - 1, by omega⟩) s.stack[s.sp] := by
  by_cases empty : s.sp.val = 0
  · simp [exec, execRet, pop_error empty, raise] at h
  · simp only [exec, execRet, pop_ok empty] at h
    exact ⟨empty, (Host.Outcome.next.inj h).symm⟩

theorem exec_call_next {nnn : Addr12} {s t : State} (h : exec (.call nnn) s = .next t) :
    ∃ room : s.sp.val + 1 < 16,
      t = setPc (setSlot (setSp s ⟨s.sp.val + 1, room⟩) ⟨s.sp.val + 1, room⟩ (s.pc + 2)) (addrWord nnn) := by
  by_cases room : s.sp.val + 1 < 16
  · simp only [exec, execCall, push_ok room] at h
    exact ⟨room, (Host.Outcome.next.inj h).symm⟩
  · simp [exec, execCall, push_error (s := s) (by omega), raise] at h

theorem exec_drw_next {x y : Reg} {n : Nat} {s t : State} (h : exec (.drw x y n) s = .next t) :
    ∃ fb flag, t = advance (writeV (setFb s fb) vf flag) := by
  simp only [exec, execDrw] at h
  split at h
  · cases h
  · split at h
    · cases h
    · exact ⟨_, _, (Host.Outcome.next.inj h).symm⟩

theorem exec_skp_next {x : Reg} {s t : State} (h : exec (.skp x) s = .next t) : ∃ c, t = skipIf s c := by
  simp only [exec, execSkp] at h
  split at h
  · cases h
  · exact ⟨_, (Host.Outcome.next.inj h).symm⟩

theorem exec_sknp_next {x : Reg} {s t : State} (h : exec (.sknp x) s = .next t) : ∃ c, t = skipIf s c := by
  simp only [exec, execSknp] at h
  split at h
  · cases h
  · exact ⟨_, (Host.Outcome.next.inj h).symm⟩

/-- `t` is `s` with the bytes stored at `a`, all at valid addresses, and pc past the instruction: Fx33 and Fx55. -/
def Stores (a : Nat) (bytes : List Byte) (s t : State) : Prop :=
  (bytes.length = 0 ∨ a + bytes.length ≤ 0x1000) ∧ t = advance (setMem s (s.mem.writeBytes a bytes))

theorem exec_ldB_next {x : Reg} {s t : State} (h : exec (.ldB x) s = .next t) :
    Stores (indexAddress s) (decimalDigits (readV s x)) s t := by
  simp only [exec, execLdB] at h
  split at h
  · cases h
  · next u stored =>
    obtain ⟨valid, rfl⟩ := memWrite_ok_inv stored
    exact ⟨valid, (Host.Outcome.next.inj h).symm⟩

theorem exec_storeRegs_next {x : Reg} {s t : State} (h : exec (.storeRegs x) s = .next t) :
    Stores (indexAddress s) (registersUpTo s x) s t := by
  simp only [exec, execStoreRegs] at h
  split at h
  · cases h
  · next u stored =>
    obtain ⟨valid, rfl⟩ := memWrite_ok_inv stored
    exact ⟨valid, (Host.Outcome.next.inj h).symm⟩

theorem exec_loadRegs_next {x : Reg} {s t : State} (h : exec (.loadRegs x) s = .next t) :
    t = advance (loadRegisters (s.mem.readBytes (indexAddress s) (x.val + 1)) 0 s) := by
  simp only [exec, execLoadRegs] at h
  by_cases valid : x.val + 1 = 0 ∨ indexAddress s + (x.val + 1) ≤ 0x1000
  · rw [memRead_ok valid] at h
    exact (Host.Outcome.next.inj h).symm
  · rw [memRead_error valid] at h
    cases h

/-! ## Frames -/

/-- Two updates within one row make an update within it. -/
theorem frame_trans {w : Writes} {s t u : State} (h : Frame w s t) (k : Frame w t u) : Frame w s u where
  regs r hr := (k.regs r hr).trans (h.regs r hr)
  index e := (k.index e).trans (h.index e)
  sp e := (k.sp e).trans (h.sp e)
  slots j hj := (k.slots j hj).trans (h.slots j hj)
  dt e := (k.dt e).trans (h.dt e)
  st e := (k.st e).trans (h.st e)
  fb e := (k.fb e).trans (h.fb e)
  keys := k.keys.trans h.keys
  aw e := (k.aw e).trans (h.aw e)
  kp e := (k.kp e).trans (h.kp e)
  draws e := (k.draws e).trans (h.draws e)
  bytes a ha := (k.bytes a ha).trans (h.bytes a ha)

/-- pc lies outside every row, so an update followed by a transfer has the update's frame. -/
theorem frame_then_setPc {w : Writes} {s t : State} (h : Frame w s t) (p : Word) : Frame w s (setPc t p) :=
  frame_trans h (frame_setPc w t p)

theorem frame_setSp {w : Writes} (s : State) (n : Fin 16) (listed : w.sp = true) : Frame w s (setSp s n) := by
  constructor <;> simp [listed]

theorem frame_setSlot {w : Writes} (s : State) {j : Fin 16} (a : Word) (listed : j ∈ w.slots) :
    Frame w s (setSlot s j a) := by
  constructor
  case slots =>
    intro k hk
    rw [slot_setSlot, if_neg]
    rintro rfl
    exact hk listed
  all_goals simp

theorem frame_setDt {w : Writes} (s : State) (b : Byte) (listed : w.dt = true) : Frame w s (setDt s b) := by
  constructor <;> simp [listed]

theorem frame_setSt {w : Writes} (s : State) (b : Byte) (listed : w.st = true) : Frame w s (setSt s b) := by
  constructor <;> simp [listed]

theorem frame_setFb {w : Writes} (s : State) (fb : Framebuffer) (listed : w.fb = true) : Frame w s (setFb s fb) := by
  constructor <;> simp [listed]

theorem frame_setAw {w : Writes} (s : State) (a : Option Reg) (listed : w.aw = true) : Frame w s (setAw s a) := by
  constructor <;> simp [listed]

theorem frame_countDraw {w : Writes} (s : State) (listed : w.draws = true) : Frame w s (countDraw s) := by
  constructor <;> simp [listed]

theorem frame_of_stores {a : Nat} {bytes : List Byte} {s t : State} (h : Stores a bytes s t) :
    Frame { bytes := addressRange a bytes.length } s t := by
  obtain ⟨-, rfl⟩ := h
  exact frame_setMem _ fun c hc => read_writeBytes_other _ _ _ (not_mem_addressRange hc)

theorem frame_loadRegisters {w : Writes} (s : State) (m : Memory) (a : Nat) {x : Reg} (listed : w.regs = regsUpTo x) :
    Frame w s (loadRegisters (m.readBytes a (x.val + 1)) 0 s) := by
  refine frame_of_regs (fun r hr => ?_) ?_
  · rw [listed, mem_regsUpTo] at hr
    rw [readV_loadRegisters_readBytes, if_neg hr]
  · rw [loadRegisters_eq]

theorem frame_of_next {w : Writes} {s t u : State} (h : (.next u : Outcome) = .next t) (f : Frame w s u) : Frame w s t :=
  Host.Outcome.next.inj h ▸ f

/-- An instruction that completes writes only what its row of the table lists. -/
theorem exec_frame {i : Instr} {s t : State} (h : exec i s = .next t) : Frame (writesOf s i) s t := by
  cases i with
  | cls => exact frame_of_next h (frame_then_setPc (frame_setFb s _ rfl) _)
  | ret =>
    obtain ⟨-, rfl⟩ := exec_ret_next h
    exact frame_then_setPc (frame_setSp s _ rfl) _
  | jp nnn => exact frame_of_next h (frame_setPc _ s _)
  | call nnn =>
    obtain ⟨room, rfl⟩ := exec_call_next h
    exact frame_then_setPc (frame_trans (frame_setSp s _ rfl) (frame_setSlot _ _ ((mem_nextSlots s _).mpr rfl))) _
  | seByte x kk => exact frame_of_next h (frame_skipIf _ s _)
  | sneByte x kk => exact frame_of_next h (frame_skipIf _ s _)
  | seReg x y => exact frame_of_next h (frame_skipIf _ s _)
  | ldByte x kk => exact frame_of_next h (frame_writeV s _ _ (.head _))
  | addByte x kk => exact frame_of_next h (frame_writeV s _ _ (.head _))
  | ldReg x y => exact frame_of_next h (frame_writeV s _ _ (.head _))
  | or x y => exact frame_of_next h (frame_writeV s _ _ (.head _))
  | and x y => exact frame_of_next h (frame_writeV s _ _ (.head _))
  | xor x y => exact frame_of_next h (frame_writeV s _ _ (.head _))
  | addReg x y => exact frame_of_next h (frame_writeResultAndFlag s _ _ _ (.head _) (.tail _ (.head _)))
  | sub x y => exact frame_of_next h (frame_writeResultAndFlag s _ _ _ (.head _) (.tail _ (.head _)))
  | shr x y => exact frame_of_next h (frame_writeResultAndFlag s _ _ _ (.head _) (.tail _ (.head _)))
  | subn x y => exact frame_of_next h (frame_writeResultAndFlag s _ _ _ (.head _) (.tail _ (.head _)))
  | shl x y => exact frame_of_next h (frame_writeResultAndFlag s _ _ _ (.head _) (.tail _ (.head _)))
  | sneReg x y => exact frame_of_next h (frame_skipIf _ s _)
  | ldI nnn => exact frame_of_next h (frame_setI s _ _)
  | jpV0 nnn => exact frame_of_next h (frame_setPc _ s _)
  | rnd x kk => exact frame_of_next h (frame_trans (frame_countDraw s rfl) (frame_writeV _ _ _ (.head _)))
  | drw x y n =>
    obtain ⟨fb, flag, rfl⟩ := exec_drw_next h
    exact frame_trans (frame_setFb s fb rfl) (frame_writeV _ _ _ (.head _))
  | skp x =>
    obtain ⟨c, rfl⟩ := exec_skp_next h
    exact frame_skipIf _ s c
  | sknp x =>
    obtain ⟨c, rfl⟩ := exec_sknp_next h
    exact frame_skipIf _ s c
  | ldVxDt x => exact frame_of_next h (frame_writeV s _ _ (.head _))
  | ldVxK x => exact frame_of_next h (frame_setAw s _ rfl)
  | ldDtVx x => exact frame_of_next h (frame_then_setPc (frame_setDt s _ rfl) _)
  | ldStVx x => exact frame_of_next h (frame_then_setPc (frame_setSt s _ rfl) _)
  | addI x => exact frame_of_next h (frame_setI s _ _)
  | ldF x => exact frame_of_next h (frame_setI s _ _)
  | ldB x => exact frame_of_stores (exec_ldB_next h)
  | storeRegs x =>
    have frame := frame_of_stores (exec_storeRegs_next h)
    rwa [length_registersUpTo] at frame
  | loadRegs x =>
    rw [exec_loadRegs_next h]
    exact frame_then_setPc (frame_loadRegisters s _ _ rfl) _

/-- Settles O55: `exec_frame`, the frame of each instruction composed from those of its state operations. -/
theorem instructionWritesOnlyWhatItsRowLists : Obligations.InstructionWritesOnlyWhatItsRowLists :=
  fun _ _ _ h => exec_frame h

end Sys2Proof.Proofs
end

section
/-! SUPPORT. The invariant of reachable states (spec 10_state.md R36): what each state operation does to it, and that every
instruction, every step and every action keeps it. -/

namespace Sys2Proof.Proofs

open Sys2Proof Sys2Proof.Machine Sys2Proof.Laws

/-- `Inv` of a state that can fetch: it waits for no key and its pc is at most 0xFFE (30_encoding.md R76, 20_memory.md R54). -/
structure Running (s : State) : Prop extends Inv s where
  /-- no key wait is pending -/
  awake : s.aw = none
  /-- the word at pc can be read -/
  fetchable : s.pc.toNat ≤ 0xFFE

/-! ## The invariant under the state operations -/

theorem inv_reset : Inv State.reset where
  memory := wf_reset
  latch h := absurd rfl h
  slotZero := rfl
  returns j low high := absurd (low.trans high) (by decide)
  pcRange := by decide
  waitPc h := absurd rfl h

/-- `Inv` does not speak of registers, I, timers, pixels, key states or the counter of draws. -/
theorem inv_data {s : State} (h : Inv s) {v : Vector Byte 16} {i : Word} {dt st : Byte} {fb : Framebuffer}
    {keys : Vector Bool 16} {draws : Nat} :
    Inv { s with v := v, i := i, dt := dt, st := st, fb := fb, keys := keys, draws := draws } :=
  ⟨h.memory, h.latch, h.slotZero, h.returns, h.pcRange, h.waitPc⟩

theorem inv_setMem {s : State} (h : Inv s) {m : Memory} (wf : m.wf) : Inv (setMem s m) :=
  ⟨wf, h.latch, h.slotZero, h.returns, h.pcRange, h.waitPc⟩

/-- The latch is set only in a wait. -/
theorem inv_latchPress {s : State} (h : Inv s) (k : Key) (down : Bool) : Inv (latchPress s k down) := by
  unfold latchPress
  split
  · next press =>
    have waiting : s.aw ≠ none := by rintro e; simp [e] at press
    exact ⟨h.memory, fun _ => waiting, h.slotZero, h.returns, h.pcRange, h.waitPc⟩
  · exact h

theorem running_data {s : State} (h : Running s) {v : Vector Byte 16} {i : Word} {dt st : Byte} {fb : Framebuffer}
    {keys : Vector Bool 16} {draws : Nat} :
    Running { s with v := v, i := i, dt := dt, st := st, fb := fb, keys := keys, draws := draws } :=
  ⟨inv_data h.toInv, h.awake, h.fetchable⟩

theorem running_setMem {s : State} (h : Running s) {m : Memory} (wf : m.wf) : Running (setMem s m) :=
  ⟨inv_setMem h.toInv wf, h.awake, h.fetchable⟩

/-- The end of a wait leaves pc at the address of the Fx0A, which was fetched. -/
theorem running_endWait {s : State} (h : Inv s) (waiting : s.aw ≠ none) : Running (setKp (setAw s none) none) :=
  ⟨⟨h.memory, fun e => absurd rfl e, h.slotZero, h.returns, h.pcRange, fun e => absurd rfl e⟩, rfl, h.waitPc waiting⟩

/-- A push holds the return address pc + 2, at most 0x1000, in a slot other than slot 0. -/
theorem running_push {s : State} (h : Running s) (room : s.sp.val + 1 < 16) :
    Running (setSlot (setSp s ⟨s.sp.val + 1, room⟩) ⟨s.sp.val + 1, room⟩ (s.pc + 2)) where
  memory := h.memory
  latch := h.latch
  slotZero := by
    have other := slot_setSlot (setSp s ⟨s.sp.val + 1, room⟩) ⟨s.sp.val + 1, room⟩ 0 (s.pc + 2)
    rw [if_neg fun e => Nat.succ_ne_zero _ (congrArg Fin.val e).symm] at other
    exact other.trans h.slotZero
  returns j low high := by
    have held : j.val ≤ s.sp.val + 1 := high
    have := h.fetchable
    rw [slot_setSlot]
    split
    · rw [BitVec.toNat_add]
      simp
      omega
    · next other =>
      have : j.val ≠ s.sp.val + 1 := fun e => other (Fin.ext e)
      exact h.returns j low (by omega)
  pcRange := h.pcRange
  waitPc := h.waitPc
  awake := h.awake
  fetchable := h.fetchable

theorem running_pop {s : State} (h : Running s) :
    Running (setSp s ⟨s.sp.val - 1, by omega⟩) where
  memory := h.memory
  latch := h.latch
  slotZero := h.slotZero
  returns j low high := h.returns j low (Nat.le_trans high (Nat.sub_le _ 1))
  pcRange := h.pcRange
  waitPc := h.waitPc
  awake := h.awake
  fetchable := h.fetchable

/-- A transfer to an address up to 0x10FE keeps the invariant. -/
theorem inv_setPc {s : State} (h : Running s) {p : Word} (range : p.toNat ≤ 0x10FE) : Inv (setPc s p) :=
  ⟨h.memory, h.latch, h.slotZero, h.returns, range, fun e => absurd h.awake e⟩

theorem inv_advance {s : State} (h : Running s) : Inv (advance s) :=
  inv_setPc h (by have := h.fetchable; rw [BitVec.toNat_add]; simp; omega)

theorem inv_skipIf {s : State} (h : Running s) (c : Bool) : Inv (skipIf s c) := by
  cases c with
  | false => exact inv_advance h
  | true => exact inv_setPc h (by have := h.fetchable; rw [BitVec.toNat_add]; simp; omega)

/-- A wait begins with no press latched and pc at the address of the Fx0A. -/
theorem inv_beginWait {s : State} (h : Running s) (x : Reg) : Inv (setAw s (some x)) :=
  ⟨h.memory, fun _ => nofun, h.slotZero, h.returns, h.pcRange, fun _ => h.fetchable⟩

theorem inv_of_stores {a : Nat} {bytes : List Byte} {s t : State} (h : Running s) (stored : Stores a bytes s t) : Inv t := by
  obtain ⟨valid, rfl⟩ := stored
  exact inv_advance (running_setMem h (wf_writeBytes h.memory (valid.imp_left List.eq_nil_of_length_eq_zero)))

/-! ## The invariant under instructions, steps and actions -/

theorem inv_of_next {t u : State} (h : (.next u : Outcome) = .next t) (inv : Inv u) : Inv t :=
  Host.Outcome.next.inj h ▸ inv

theorem exec_keeps_inv {i : Instr} {s t : State} (run : Running s) (h : exec i s = .next t) : Inv t := by
  cases i with
  | ret =>
    obtain ⟨held, rfl⟩ := exec_ret_next h
    have target := run.returns s.sp (by omega) le_rfl
    exact inv_setPc (running_pop run) (target.trans (by decide))
  | jp nnn =>
    have target := toNat_addrWord nnn
    exact inv_of_next h (inv_setPc run (by omega))
  | call nnn =>
    obtain ⟨room, rfl⟩ := exec_call_next h
    have target := toNat_addrWord nnn
    exact inv_setPc (running_push run room) (by omega)
  | jpV0 nnn =>
    have target := toNat_offsetTarget s nnn
    exact inv_of_next h (inv_setPc run (by omega))
  | seByte x kk => exact inv_of_next h (inv_skipIf run _)
  | sneByte x kk => exact inv_of_next h (inv_skipIf run _)
  | seReg x y => exact inv_of_next h (inv_skipIf run _)
  | sneReg x y => exact inv_of_next h (inv_skipIf run _)
  | skp x =>
    obtain ⟨c, rfl⟩ := exec_skp_next h
    exact inv_skipIf run c
  | sknp x =>
    obtain ⟨c, rfl⟩ := exec_sknp_next h
    exact inv_skipIf run c
  | ldVxK x => exact inv_of_next h (inv_beginWait run x)
  | ldB x => exact inv_of_stores run (exec_ldB_next h)
  | storeRegs x => exact inv_of_stores run (exec_storeRegs_next h)
  | loadRegs x =>
    rw [exec_loadRegs_next h, loadRegisters_eq]
    exact inv_advance (running_data run)
  | drw x y n =>
    obtain ⟨fb, flag, rfl⟩ := exec_drw_next h
    exact inv_advance (running_data run)
  -- every other instruction writes registers, I, a timer or pixels and advances pc
  | _ => exact inv_of_next h (inv_advance (running_data run))

theorem waitStep_keeps_inv {r : Reg} {s : State} (h : Inv s) (waiting : s.aw ≠ none) : Inv (waitStep r s) := by
  cases press : s.kp with
  | none => rwa [waitStep_of_none press]
  | some k =>
    rw [waitStep_of_some press]
    exact inv_advance (running_data (running_endWait h waiting))

/-- A step is a wait step, or executes an instruction that was fetched outside a wait. -/
theorem step_cases {s t : State} (h : step s = .next t) :
    (∃ r, s.aw = some r ∧ t = waitStep r s) ∨ (s.aw = none ∧ ∃ i, fetchInstr s = .ok i ∧ exec i s = .next t) := by
  unfold step at h
  split at h
  · next r waiting => exact .inl ⟨r, waiting, (Host.Outcome.next.inj h).symm⟩
  · next awake =>
    split at h
    · cases h
    · next i fetched => exact .inr ⟨awake, i, fetched, h⟩

theorem step_keeps_inv {s t : State} (inv : Inv s) (h : step s = .next t) : Inv t := by
  rcases step_cases h with ⟨r, waiting, rfl⟩ | ⟨awake, i, fetched, executed⟩
  · exact waitStep_keeps_inv inv (by simp [waiting])
  · obtain ⟨fetchable, -⟩ := fetchInstr_ok_iff.mp fetched
    exact exec_keeps_inv ⟨inv, awake, fetchable⟩ executed

theorem new_inv (font : Vector Byte 80) (s : State) : Inv (new font s) :=
  inv_data (inv_setMem inv_reset (wf_writeBytes wf_reset (.inr (by simp [fontBase]))))

theorem load_keeps_inv {bytes : List Byte} {s t : State} (inv : Inv s) (h : load bytes s = .next t) : Inv t := by
  unfold load at h
  split at h
  · next fits =>
    have valid : Config.programOrigin.toNat + bytes.length ≤ 0x1000 := Nat.add_le_add_left fits 0x200
    exact inv_of_next h (inv_setMem inv (wf_writeBytes inv.memory (.inr valid)))
  · cases h

theorem setKey_keeps_inv {k : Nat} {down : Bool} {s t : State} (inv : Inv s) (h : setKey k down s = .next t) : Inv t := by
  unfold setKey at h
  split at h
  · exact inv_of_next h (inv_latchPress (inv_data inv) _ down)
  · cases h

theorem hostRead_next {x y : Nat} {s t : State} (h : hostRead x y s = .next t) : t = s := by
  unfold hostRead at h
  split at h
  · cases h
  · exact (Host.Outcome.next.inj h).symm

theorem perform_keeps_inv {a : Action} {s t : State} (inv : Inv s) (h : perform a s = .next t) : Inv t := by
  cases a with
  | new font => exact inv_of_next h (new_inv font s)
  | load bytes => exact load_keeps_inv inv h
  | step => exact step_keeps_inv inv h
  | tickTimers => exact inv_of_next h (inv_data inv)
  | setKey k down => exact setKey_keeps_inv inv h
  | snapshot => exact inv_of_next h inv
  | read x y => rwa [hostRead_next h]

theorem inv_of_reachable {s : State} (h : Reachable s) : Inv s := by
  induction h with
  | reset => exact inv_reset
  | act a s t _ done inv => exact perform_keeps_inv inv done

/-- Settles O57: reset lists no memory, holds no return address and waits for no key (`inv_reset`). -/
theorem resetMeetsTheReachableStateInvariant : Obligations.ResetMeetsTheReachableStateInvariant := inv_reset

/-- Settles O58: `step_keeps_inv`, by the wait step or the instruction executed. -/
theorem stepKeepsTheReachableStateInvariant : Obligations.StepKeepsTheReachableStateInvariant :=
  fun _ _ inv h => step_keeps_inv inv h

/-- Settles O59: `perform_keeps_inv` for each action, and by induction over the run that reaches the state. -/
theorem everyActionKeepsTheReachableStateInvariant : Obligations.EveryActionKeepsTheReachableStateInvariant :=
  ⟨fun _ _ _ inv h => perform_keeps_inv inv h, fun _ h => inv_of_reachable h⟩

end Sys2Proof.Proofs
end

section
/-! SUPPORT. Canonical memories that read alike up to 0xFFF are equal (spec 10_state.md R33), and the sound timer flows into
nothing but itself (10_state.md R28). -/

namespace Sys2Proof.Proofs

open Sys2Proof Sys2Proof.Machine Sys2Proof.Laws

/-! ## Memory -/

/-- An address that is not listed reads as its reset contents. -/
theorem read_of_not_listed {m : Memory} {a : Nat} (h : ∀ c ∈ m, c.1 ≠ a) : m.read a = Memory.initial a := by
  induction m with
  | nil => rfl
  | cons c m ih =>
    obtain ⟨here, rest⟩ := List.forall_mem_cons.mp h
    rw [read_cons, if_neg here.symm, ih rest]

/-- Canonical memory lists no address above 0xFFF. -/
theorem read_above_maxAddress {m : Memory} (h : m.wf) {a : Nat} (above : maxAddress < a) : m.read a = Memory.initial a :=
  read_of_not_listed fun c hc => ((h.2 c hc).1.trans_lt above).ne

/-- Settles O14: above 0xFFF canonical memories read alike too, so `eq_of_read_eq` applies. -/
theorem memoriesThatReadAlikeAreEqual : Obligations.MemoriesThatReadAlikeAreEqual := by
  intro m m' wf wf' alike
  refine eq_of_read_eq wf wf' fun a => ?_
  by_cases valid : a ≤ 0xFFF
  · exact alike a valid
  · have above : maxAddress < a := not_le.mp valid
    rw [read_above_maxAddress wf above, read_above_maxAddress wf' above]

/-! ## The sound timer -/

@[simp] theorem indexAddress_setSt (s : State) (b : Byte) : indexAddress (setSt s b) = indexAddress s := rfl

@[simp] theorem registersUpTo_setSt (s : State) (b : Byte) (x : Reg) : registersUpTo (setSt s b) x = registersUpTo s x := rfl

@[simp] theorem keyOperand_setSt (s : State) (b : Byte) (x : Reg) : keyOperand (setSt s b) x = keyOperand s x := rfl

@[simp] theorem memRead_setSt (s : State) (b : Byte) (a n : Nat) : memRead (setSt s b) a n = memRead s a n := rfl

theorem memWrite_setSt (s : State) (b : Byte) (a : Nat) (bytes : List Byte) :
    memWrite (setSt s b) a bytes = (memWrite s a bytes).map (setSt · b) := by
  rw [memWrite_eq, memWrite_eq, setSt_pc]
  cases accessError s.pc a bytes.length <;> rfl

theorem loadRegisters_setSt (bytes : List Byte) (k : Nat) (s : State) (b : Byte) :
    loadRegisters bytes k (setSt s b) = setSt (loadRegisters bytes k s) b := by
  induction bytes generalizing k s with
  | nil => rfl
  | cons c bytes ih =>
    rw [loadRegisters, loadRegisters]
    split
    · exact ih (k + 1) (writeV s _ c)
    · rfl

theorem forgetSt_skipIf_setSt (s : State) (b : Byte) (c : Bool) :
    forgetSt (.next (skipIf (setSt s b) c)) = forgetSt (.next (skipIf s c)) := by
  cases c <;> rfl

/-- An instruction's outcome does not depend on ST, but for ST itself. -/
theorem forgetSt_exec_setSt (i : Instr) (s : State) (b : Byte) : forgetSt (exec i (setSt s b)) = forgetSt (exec i s) := by
  cases i with
  | ret =>
    by_cases empty : s.sp.val = 0
    · simp only [exec, execRet, pop_error empty, pop_error (s := setSt s b) empty, setSt_pc]
    · simp only [exec, execRet, pop_ok empty, pop_ok (s := setSt s b) empty]
      rfl
  | call nnn =>
    by_cases room : s.sp.val + 1 < 16
    · simp only [exec, execCall, push_ok room, push_ok (s := setSt s b) room]
      rfl
    · have full : s.sp.val = 15 := by omega
      simp only [exec, execCall, push_error full, push_error (s := setSt s b) full, setSt_pc]
  | seByte x kk => exact forgetSt_skipIf_setSt s b _
  | sneByte x kk => exact forgetSt_skipIf_setSt s b _
  | seReg x y => exact forgetSt_skipIf_setSt s b _
  | sneReg x y => exact forgetSt_skipIf_setSt s b _
  | skp x =>
    simp only [exec, execSkp, keyOperand_setSt]
    cases keyOperand s x with
    | error e => rfl
    | ok k => exact forgetSt_skipIf_setSt s b _
  | sknp x =>
    simp only [exec, execSknp, keyOperand_setSt]
    cases keyOperand s x with
    | error e => rfl
    | ok k => exact forgetSt_skipIf_setSt s b _
  | drw x y n =>
    simp only [exec, execDrw, memRead_setSt, indexAddress_setSt, readV_setSt, setSt_fb]
    cases memRead s (indexAddress s) n with
    | error e => rfl
    | ok rows =>
      obtain ⟨fb, collided, drawn⟩ := drawSprite_ok (readV s x).toNat (readV s y).toNat rows s.fb
      simp only [drawn]
      rfl
  | ldB x =>
    simp only [exec, execLdB, memWrite_setSt, indexAddress_setSt, readV_setSt]
    cases memWrite s (indexAddress s) (decimalDigits (readV s x)) <;> rfl
  | storeRegs x =>
    simp only [exec, execStoreRegs, memWrite_setSt, indexAddress_setSt, registersUpTo_setSt]
    cases memWrite s (indexAddress s) (registersUpTo s x) <;> rfl
  | loadRegs x =>
    simp only [exec, execLoadRegs, memRead_setSt, indexAddress_setSt, loadRegisters_setSt]
    cases memRead s (indexAddress s) (x.val + 1) <;> rfl
  -- every other instruction computes its result from fields other than ST
  | _ => rfl

/-- Settles O56: every operation an instruction uses commutes with a write of ST (`forgetSt_exec_setSt`). -/
theorem noInstructionReadsTheSoundTimer : Obligations.NoInstructionReadsTheSoundTimer := forgetSt_exec_setSt

end Sys2Proof.Proofs
end

section
/-! SUPPORT. Accesses to memory answer all their bytes or the first invalid address (spec 20_memory.md R52, R53, R59), and a
step by its key wait, its fetch and its decode (30_encoding.md R76), so that stored bytes are fetched as code (R65). -/

namespace Sys2Proof.Proofs

open Sys2Proof Sys2Proof.Machine Sys2Proof.Laws

/-! ## Accesses -/

/-- Addresses all valid make an access that is empty or ends at or below 0xFFF. -/
theorem access_fits {a n : Nat} (valid : ∀ k, k < n → a + k ≤ 0xFFF) : n = 0 ∨ a + n ≤ 0x1000 := by
  cases n with
  | zero => exact .inl rfl
  | succ n => exact .inr (Nat.succ_le_succ (valid n (Nat.lt_succ_self n)))

/-- The first invalid address of an access is its base, when that is above 0xFFF already, or 0x1000. -/
theorem max_eq_first_invalid {a k : Nat} (invalid : 0xFFF < a + k) (first : ∀ j, j < k → a + j ≤ 0xFFF) :
    max a 0x1000 = a + k := by
  cases k with
  | zero => exact max_eq_left invalid
  | succ k =>
    have last := first k (Nat.lt_succ_self k)
    omega

theorem memRead_first_invalid {s : State} {a n k : Nat} (hk : k < n) (invalid : 0xFFF < a + k)
    (first : ∀ j, j < k → a + j ≤ 0xFFF) : memRead s a n = .error (.addressOutOfRange s.pc (a + k)) := by
  rw [memRead_error (by omega), max_eq_first_invalid invalid first]

theorem memWrite_first_invalid {s : State} {a k : Nat} {bytes : List Byte} (hk : k < bytes.length)
    (invalid : 0xFFF < a + k) (first : ∀ j, j < k → a + j ≤ 0xFFF) :
    memWrite s a bytes = .error (.addressOutOfRange s.pc (a + k)) := by
  rw [memWrite_error (by omega), max_eq_first_invalid invalid first]

/-- Settles O11: `memRead_ok` and `getElem_readBytes`, or `memRead_first_invalid`. -/
theorem readAnswersBytesOrTheFirstInvalidAddress : Obligations.ReadAnswersBytesOrTheFirstInvalidAddress := by
  refine fun s a n => ⟨fun valid => ?_, fun k hk invalid first => memRead_first_invalid hk invalid first⟩
  exact ⟨s.mem.readBytes a n, memRead_ok (access_fits valid), length_readBytes s.mem a n, getElem_readBytes s.mem a n⟩

/-- Settles O12: `memWrite_ok` with what the written memory reads, or `memWrite_first_invalid`. -/
theorem storeWritesAllBytesOrNone : Obligations.StoreWritesAllBytesOrNone := by
  refine fun s a bytes wf => ⟨fun valid => ?_, fun k hk invalid first => memWrite_first_invalid hk invalid first⟩
  have fits := access_fits valid
  have fits' := fits.imp_left List.eq_nil_of_length_eq_zero
  exact ⟨_, memWrite_ok fits, rfl, wf_writeBytes wf fits', fun _ hk => read_writeBytes wf fits' hk,
    fun _ outside => read_writeBytes_other s.mem a bytes outside⟩

/-- The machine's font is the table of R60, row by row. -/
theorem read_reset_glyph (d : Fin 16) (row : Fin 5) :
    State.reset.mem.read (5 * d.val + row.val) = glyphByte d row := by
  revert d row
  decide

/-- Settles O13: `read_write`; reset memory lists nothing, so it reads the font table and then zeros. -/
theorem readReturnsTheMostRecentWrite : Obligations.ReadReturnsTheMostRecentWrite :=
  ⟨fun _ a b c wf => read_write wf a b c, read_reset_glyph, fun _ afterFont _ => initial_of_ge afterFont⟩

/-! ## The step -/

theorem step_of_waiting {s : State} {r : Reg} (waiting : s.aw = some r) : step s = .next (waitStep r s) := by
  rw [step, waiting]

/-- Outside a wait a pc that cannot be fetched from is the error of the fetch. -/
theorem step_of_unfetchable {s : State} (awake : s.aw = none) (h : ¬ s.pc.toNat ≤ 0xFFE) :
    step s = .fault (.addressOutOfRange s.pc (max s.pc.toNat 0x1000)) := by
  simp only [step, awake, fetchInstr, fetchWord_error h, raise]

theorem step_of_invalidOpcode {s : State} (awake : s.aw = none) (fetchable : s.pc.toNat ≤ 0xFFE)
    (invalid : decodeWord (wordAtPc s) = none) : step s = .fault (.invalidOpcode s.pc (wordAtPc s)) := by
  simp only [step, awake, fetchInstr, fetchWord_ok fetchable, invalid, raise]

theorem step_of_decoded {s : State} {i : Instr} (awake : s.aw = none) (fetchable : s.pc.toNat ≤ 0xFFE)
    (decoded : decodeWord (wordAtPc s) = some i) : step s = exec i s := by
  simp only [step, awake, fetchInstr_ok_iff.mpr ⟨fetchable, decoded⟩]

/-- Settles O6: one lemma for each way a step can go. -/
theorem stepFetchesDecodesAndExecutes : Obligations.StepFetchesDecodesAndExecutes := by
  refine fun s => ⟨fun r => step_of_waiting, fun awake beyond => ?_, fun awake last => ?_,
    step_of_invalidOpcode, fun awake fetchable i => step_of_decoded awake fetchable, fun e failed => ?_⟩
  · rw [step_of_unfetchable awake (by omega), max_eq_left beyond]
  · rw [step_of_unfetchable awake (by omega), last]
    rfl
  · rw [failed, settle]

/-! ## Stored bytes as code -/

theorem toNat_wordAtPc (s : State) :
    (wordAtPc s).toNat = 256 * (s.mem.read s.pc.toNat).toNat + (s.mem.read (s.pc.toNat + 1)).toNat := by
  have hi := (s.mem.read s.pc.toNat).isLt
  have lo := (s.mem.read (s.pc.toNat + 1)).isLt
  rw [wordAtPc, BitVec.toNat_ofNat]
  omega

theorem registersUpTo_fit {s : State} {a : Nat} {x : Reg} (valid : a + x.val ≤ 0xFFF) :
    a + (registersUpTo s x).length ≤ 0x1000 := by
  rw [length_registersUpTo]
  exact Nat.succ_le_succ valid

/-- Fx55 at valid addresses stores V0..Vx from I on and moves pc on. -/
theorem exec_storeRegs_ok {s : State} {x : Reg} (valid : s.i.toNat + x.val ≤ 0xFFF) :
    exec (.storeRegs x) s = .next (advance (setMem s (s.mem.writeBytes s.i.toNat (registersUpTo s x)))) := by
  rw [exec, execStoreRegs, indexAddress, memWrite_ok (.inr (registersUpTo_fit valid))]

/-- After V0..Vx are stored at valid addresses from `a` on, register `r` of them is the byte at `a + r`. -/
theorem read_writeBytes_registersUpTo {s : State} (wf : s.mem.wf) {a : Nat} {x r : Reg} (valid : a + x.val ≤ 0xFFF)
    (stored : r ≤ x) : (s.mem.writeBytes a (registersUpTo s x)).read (a + r.val) = readV s r := by
  have hr : r.val < (registersUpTo s x).length := by rw [length_registersUpTo]; exact Nat.lt_succ_of_le stored
  rw [read_writeBytes wf (.inr (registersUpTo_fit valid)) hr, getElem_registersUpTo]

/-- Settles O41: the bytes at I and I + 1 are V0 and V1 (`read_writeBytes_registersUpTo`), and a step there decodes them. -/
theorem storedCodeIsFetched : Obligations.StoredCodeIsFetched := by
  intro s x wf two valid
  refine ⟨_, exec_storeRegs_ok valid, ?_, fun i decoded awake => step_of_decoded awake ?_ decoded⟩
  · have first := read_writeBytes_registersUpTo wf valid (Fin.zero_le x)
    have second := read_writeBytes_registersUpTo (r := 1) wf valid two
    rw [toNat_wordAtPc]
    exact congrArg₂ (fun hi lo : Byte => 256 * hi.toNat + lo.toNat) first second
  · show s.i.toNat ≤ 0xFFE
    omega

/-- The program origin can be fetched from, and so can a pc that `fetchablePc` keeps. -/
theorem fetchablePc_le (s : State) : (fetchablePc s).toNat ≤ 0xFFE := by
  unfold fetchablePc
  split
  · next kept => exact Nat.le_of_succ_le_succ kept
  · decide

/-- The word at pc after a word is placed is that word. -/
theorem wordAtPc_withFetchWord {s : State} (wf : s.mem.wf) (w : Word) : wordAtPc (s.withFetchWord 16 w.toNat) = w := by
  calc wordAtPc (s.withFetchWord 16 w.toNat)
      = BitVec.ofNat 16 (w.toNat % 2 ^ 16) := wordAtPc_storeWord wf (fetchablePc_le s)
    _ = w := by rw [Nat.mod_eq_of_lt w.isLt, BitVec.ofNat_toNat, BitVec.setWidth_eq]

/-- Settles O54: a placed word ends the wait, lies where it can be fetched, and is the word at pc. -/
theorem placedWordIsTheNextInstruction : Obligations.PlacedWordIsTheNextInstruction := by
  intro s w i wf decoded
  refine step_of_decoded rfl (fetchablePc_le s) ?_
  rwa [wordAtPc_withFetchWord wf]

end Sys2Proof.Proofs
end

section
/-! SUPPORT. The encoder and the decoder invert each other, the rows of the opcode map share no word, and the words that no row
accepts (spec 30_encoding.md R70, R71, R73, R74, R77). -/

namespace Sys2Proof.Proofs

open Sys2Proof Sys2Proof.Laws

theorem accepts_iff {r : OpcodeRow} {w : Word} : r.accepts w = true ↔ w &&& r.mask = r.value := by
  simp [OpcodeRow.accepts]

/-! ## A word encoded is decoded -/

/-- Every well-formed instruction's word fits its row of the opcode map, constructor by constructor. -/
theorem encodingFits (i : Instr) : EncodingFits.Statement i := by
  cases i with
  | cls => exact EncodingFits.cls
  | ret => exact EncodingFits.ret
  | jp nnn => exact EncodingFits.jp nnn
  | call nnn => exact EncodingFits.call nnn
  | seByte x kk => exact EncodingFits.seByte x kk
  | sneByte x kk => exact EncodingFits.sneByte x kk
  | seReg x y => exact EncodingFits.seReg x y
  | ldByte x kk => exact EncodingFits.ldByte x kk
  | addByte x kk => exact EncodingFits.addByte x kk
  | ldReg x y => exact EncodingFits.ldReg x y
  | or x y => exact EncodingFits.or x y
  | and x y => exact EncodingFits.and x y
  | xor x y => exact EncodingFits.xor x y
  | addReg x y => exact EncodingFits.addReg x y
  | sub x y => exact EncodingFits.sub x y
  | shr x y => exact EncodingFits.shr x y
  | subn x y => exact EncodingFits.subn x y
  | shl x y => exact EncodingFits.shl x y
  | sneReg x y => exact EncodingFits.sneReg x y
  | ldI nnn => exact EncodingFits.ldI nnn
  | jpV0 nnn => exact EncodingFits.jpV0 nnn
  | rnd x kk => exact EncodingFits.rnd x kk
  | drw x y n => exact EncodingFits.drw x y n
  | skp x => exact EncodingFits.skp x
  | sknp x => exact EncodingFits.sknp x
  | ldVxDt x => exact EncodingFits.ldVxDt x
  | ldVxK x => exact EncodingFits.ldVxK x
  | ldDtVx x => exact EncodingFits.ldDtVx x
  | ldStVx x => exact EncodingFits.ldStVx x
  | addI x => exact EncodingFits.addI x
  | ldF x => exact EncodingFits.ldF x
  | ldB x => exact EncodingFits.ldB x
  | storeRegs x => exact EncodingFits.storeRegs x
  | loadRegs x => exact EncodingFits.loadRegs x

theorem decodeWord_encode {i : Instr} (wf : i.WellFormed = true) : decodeWord (encode i) = some i := by
  obtain ⟨r, listed, accepted, built⟩ := encodingFits i wf
  rw [decodeWord_of_row listed accepted, built]

/-- The byte decoder takes a word's two bytes, high byte first, and leaves the rest. -/
theorem decodeBytes_of_decodeWord {w : Word} {i : Instr} (decoded : decodeWord w = some i) (rest : List Byte) :
    decodeBytes (hiByte w :: loByte w :: rest) = .instr i rest := by
  simp [decodeBytes, wordOfBytes_hiByte_loByte, decoded]

/-- Settles O1: the word fits a row that builds the instruction back (`encodingFits`), and its bytes make it again. -/
theorem encodedInstructionDecodesToItself : Obligations.EncodedInstructionDecodesToItself :=
  fun _ wf => ⟨decodeWord_encode wf, decodeBytes_of_decodeWord (decodeWord_encode wf)⟩

/-! ## What a mask says of the fields of a word -/

/-- The bits of 0xF000 hold the field op. -/
theorem and_F000_eq_iff {w : Word} {op : BitVec 4} : w &&& 0xF000 = formXKK op 0 0 ↔ fieldOp w = op := by
  simp only [← BitVec.toNat_inj, toNat_and_F000, toNat_formXKK, toNat_fieldOp]
  have := w.isLt
  have zero : (0 : Byte).toNat = 0 := rfl
  omega

/-- The bits of 0xF00F hold the fields op and n. -/
theorem and_F00F_eq_iff {w : Word} {op n : BitVec 4} :
    w &&& 0xF00F = formXYN op 0 0 n ↔ fieldOp w = op ∧ fieldN w = n.toNat := by
  simp only [← BitVec.toNat_inj, toNat_and_F00F, toNat_formXYN, toNat_fieldOp, fieldN_eq]
  have := w.isLt
  have := n.isLt
  omega

/-- The bits of 0xF0FF hold the fields op and kk. -/
theorem and_F0FF_eq_iff {w : Word} {op : BitVec 4} {kk : Byte} :
    w &&& 0xF0FF = formXKK op 0 kk ↔ fieldOp w = op ∧ fieldKK w = kk := by
  simp only [← BitVec.toNat_inj, toNat_and_F0FF, toNat_formXKK, toNat_fieldOp, toNat_fieldKK]
  have := w.isLt
  have := kk.isLt
  omega

theorem and_FFFF (w : Word) : w &&& 0xFFFF = w := by
  rw [show (0xFFFF : Word) = BitVec.allOnes 16 from rfl, BitVec.and_allOnes]

/-- Every word is the word its fields op and nnn make. -/
theorem formNNN_fields (w : Word) : formNNN (fieldOp w) (fieldNNN w) = w := by
  apply BitVec.eq_of_toNat_eq
  have := w.isLt
  rw [toNat_formNNN, toNat_fieldOp, toNat_fieldNNN]
  omega

/-! ## A word decoded is encoded -/

theorem formNNN_of_and_F000 {w : Word} {op : BitVec 4} (h : w &&& 0xF000 = formXKK op 0 0) :
    formNNN op (fieldNNN w) = w := by
  rw [← and_F000_eq_iff.mp h, formNNN_fields]

theorem formXKK_of_and_F000 {w : Word} {op : BitVec 4} (h : w &&& 0xF000 = formXKK op 0 0) :
    formXKK op (fieldX w) (fieldKK w) = w := by
  rw [← and_F000_eq_iff.mp h, formXKK_fields]

theorem formXYN_of_and_F000 {w : Word} {op : BitVec 4} (h : w &&& 0xF000 = formXKK op 0 0) :
    formXYN op (fieldX w) (fieldY w) (BitVec.ofNat 4 (fieldN w)) = w := by
  rw [← and_F000_eq_iff.mp h, formXYN_fields]

theorem formXYN_of_and_F00F {w : Word} {op n : BitVec 4} (h : w &&& 0xF00F = formXYN op 0 0 n) :
    formXYN op (fieldX w) (fieldY w) n = w := by
  obtain ⟨rfl, hn⟩ := and_F00F_eq_iff.mp h
  rw [show n = BitVec.ofNat 4 (fieldN w) by rw [hn, BitVec.ofNat_toNat, BitVec.setWidth_eq], formXYN_fields]

theorem formXKK_of_and_F0FF {w : Word} {op : BitVec 4} {kk : Byte} (h : w &&& 0xF0FF = formXKK op 0 kk) :
    formXKK op (fieldX w) kk = w := by
  obtain ⟨rfl, rfl⟩ := and_F0FF_eq_iff.mp h
  exact formXKK_fields w

/-- The row reads every bit of a word it accepts: what it builds is well formed and encodes to that word. -/
def RowEncodes (r : OpcodeRow) : Prop :=
  ∀ w : Word, w &&& r.mask = r.value → (r.build w).WellFormed = true ∧ encode (r.build w) = w

theorem opcodeRowsLow_encodes : ∀ r ∈ opcodeRowsLow, RowEncodes r := by
  simp only [opcodeRowsLow, List.forall_mem_cons, List.not_mem_nil, IsEmpty.forall_iff, implies_true, and_true]
  exact ⟨fun w h => ⟨rfl, h.symm.trans (and_FFFF w)⟩, fun w h => ⟨rfl, h.symm.trans (and_FFFF w)⟩,
    fun _ h => ⟨rfl, formNNN_of_and_F000 h⟩, fun _ h => ⟨rfl, formNNN_of_and_F000 h⟩,
    fun _ h => ⟨rfl, formXKK_of_and_F000 h⟩, fun _ h => ⟨rfl, formXKK_of_and_F000 h⟩,
    fun _ h => ⟨rfl, formXYN_of_and_F00F h⟩,
    fun _ h => ⟨rfl, formXKK_of_and_F000 h⟩, fun _ h => ⟨rfl, formXKK_of_and_F000 h⟩⟩

theorem opcodeRowsAlu_encodes : ∀ r ∈ opcodeRowsAlu, RowEncodes r := by
  simp only [opcodeRowsAlu, List.forall_mem_cons, List.not_mem_nil, IsEmpty.forall_iff, implies_true, and_true]
  and_intros
  all_goals exact fun _ h => ⟨rfl, formXYN_of_and_F00F h⟩

theorem fieldN_le (w : Word) : fieldN w ≤ 15 := by
  rw [fieldN_eq]
  omega

theorem opcodeRowsHigh_encodes : ∀ r ∈ opcodeRowsHigh, RowEncodes r := by
  simp only [opcodeRowsHigh, List.forall_mem_cons, List.not_mem_nil, IsEmpty.forall_iff, implies_true, and_true]
  exact ⟨fun _ h => ⟨rfl, formXYN_of_and_F00F h⟩,
    fun _ h => ⟨rfl, formNNN_of_and_F000 h⟩, fun _ h => ⟨rfl, formNNN_of_and_F000 h⟩,
    fun _ h => ⟨rfl, formXKK_of_and_F000 h⟩,
    fun w h => ⟨decide_eq_true (fieldN_le w), formXYN_of_and_F000 h⟩,
    fun _ h => ⟨rfl, formXKK_of_and_F0FF h⟩, fun _ h => ⟨rfl, formXKK_of_and_F0FF h⟩⟩

theorem opcodeRowsF_encodes : ∀ r ∈ opcodeRowsF, RowEncodes r := by
  simp only [opcodeRowsF, List.forall_mem_cons, List.not_mem_nil, IsEmpty.forall_iff, implies_true, and_true]
  and_intros
  all_goals exact fun _ h => ⟨rfl, formXKK_of_and_F0FF h⟩

theorem opcodeTable_encodes : ∀ r ∈ opcodeTable, RowEncodes r := by
  simp only [opcodeTable, List.forall_mem_append]
  exact ⟨opcodeRowsLow_encodes, opcodeRowsAlu_encodes, opcodeRowsHigh_encodes, opcodeRowsF_encodes⟩

/-- Settles O2: the word is accepted by a row, and every row encodes what it builds (`opcodeTable_encodes`). -/
theorem decodedWordEncodesToItself : Obligations.DecodedWordEncodesToItself := by
  intro w i decoded
  obtain ⟨r, listed, accepted, rfl⟩ := row_of_decodeWord decoded
  exact opcodeTable_encodes r listed w (accepts_iff.mp accepted)

/-! ## Rows and words -/

/-- Two rows that share a word have one pattern. -/
def SamePatternIfShared (r q : OpcodeRow) : Prop :=
  ∀ w : Word, r.accepts w = true → q.accepts w = true → r.mask = q.mask ∧ r.value = q.value

theorem samePatternIfShared_of_conflict {r q : OpcodeRow} (h : rowsConflict r q = true) : SamePatternIfShared r q :=
  fun w hr hq => absurd hq (by simp [not_accepts_of_conflict h hr])

theorem decodeWord_eq_some_iff {w : Word} {i : Instr} :
    decodeWord w = some i ↔ ∃ r ∈ opcodeTable, r.accepts w = true ∧ r.build w = i :=
  ⟨row_of_decodeWord, fun ⟨_, listed, accepted, built⟩ => built ▸ decodeWord_of_row listed accepted⟩

theorem decodeWord_eq_none_iff {w : Word} : decodeWord w = none ↔ ∀ r ∈ opcodeTable, w &&& r.mask ≠ r.value := by
  simp [decodeWord, OpcodeRow.accepts]

/-- Any two rows: those at different places of the map conflict, and a row has its own pattern. -/
theorem samePatternIfShared_of_mem {r q : OpcodeRow} (hr : r ∈ opcodeTable) (hq : q ∈ opcodeTable) :
    SamePatternIfShared r q := by
  have symm : Std.Symm SamePatternIfShared := ⟨fun _ _ h w hr hq => (h w hq hr).imp Eq.symm Eq.symm⟩
  have refl : ∀ p ∈ opcodeTable, SamePatternIfShared p p := fun _ _ _ _ _ => ⟨rfl, rfl⟩
  exact List.Pairwise.forall_of_forall refl (opcodeTable_conflicts.imp samePatternIfShared_of_conflict) hr hq

/-- Settles O3: distinct rows conflict (`opcodeTable_conflicts`), and the decoder answers the row that accepts the word. -/
theorem onePatternAtMostMatchesAWord : Obligations.OnePatternAtMostMatchesAWord := by
  simp only [Obligations.OnePatternAtMostMatchesAWord, ← accepts_iff]
  exact ⟨fun w _ hr _ hq => samePatternIfShared_of_mem hr hq w, fun _ _ => decodeWord_eq_some_iff⟩

/-! ## Invalid words: what a row's pattern asks of the fields, and which words each part of the map misses -/

theorem and_F000_eq_iff_of_masked {w v : Word} (masked : v &&& 0xF000 = v) :
    w &&& 0xF000 = v ↔ fieldOp w = fieldOp v :=
  (Eq.congr_right (masked.symm.trans (and_F000_eq_iff.mpr rfl))).trans and_F000_eq_iff

theorem and_F00F_eq_iff_of_masked {w v : Word} (masked : v &&& 0xF00F = v) :
    w &&& 0xF00F = v ↔ fieldOp w = fieldOp v ∧ fieldN w = fieldN v :=
  (Eq.congr_right (masked.symm.trans (and_F00F_eq_iff.mpr ⟨rfl, rfl⟩))).trans and_F00F_eq_iff

theorem and_F0FF_eq_iff_of_masked {w v : Word} (masked : v &&& 0xF0FF = v) :
    w &&& 0xF0FF = v ↔ fieldOp w = fieldOp v ∧ fieldKK w = fieldKK v :=
  (Eq.congr_right (masked.symm.trans (and_F0FF_eq_iff.mpr ⟨rfl, rfl⟩))).trans and_F0FF_eq_iff

theorem opcodeRowsLow_miss_iff {w : Word} : (∀ r ∈ opcodeRowsLow, w &&& r.mask ≠ r.value) ↔
    (w ≠ 0x00E0 ∧ w ≠ 0x00EE) ∧ fieldOp w ∉ [0x1, 0x2, 0x3, 0x4, 0x6, 0x7] ∧ ¬(fieldOp w = 0x5 ∧ fieldN w = 0) := by
  simp (disch := decide) only [opcodeRowsLow, List.forall_mem_cons, ne_eq, and_FFFF, and_F000_eq_iff_of_masked,
    and_F00F_eq_iff_of_masked]
  generalize fieldOp w = op, fieldN w = n
  simp [fieldOp, fieldN]
  tauto

theorem opcodeRowsAlu_miss_iff {w : Word} : (∀ r ∈ opcodeRowsAlu, w &&& r.mask ≠ r.value) ↔
    (fieldOp w = 0x8 → fieldN w ∉ [0x0, 0x1, 0x2, 0x3, 0x4, 0x5, 0x6, 0x7, 0xE]) := by
  simp (disch := decide) only [opcodeRowsAlu, List.forall_mem_cons, ne_eq, and_F00F_eq_iff_of_masked]
  generalize fieldOp w = op, fieldN w = n
  -- the fields of the rows' values compute; the map repeats the group in every row, R74 names it once
  simp [fieldOp, fieldN, imp_and]

theorem opcodeRowsHigh_miss_iff {w : Word} : (∀ r ∈ opcodeRowsHigh, w &&& r.mask ≠ r.value) ↔
    fieldOp w ∉ [0xA, 0xB, 0xC, 0xD] ∧ ¬(fieldOp w = 0x9 ∧ fieldN w = 0) ∧
      (fieldOp w = 0xE → fieldKK w ∉ [0x9E, 0xA1]) := by
  simp (disch := decide) only [opcodeRowsHigh, List.forall_mem_cons, ne_eq, and_F000_eq_iff_of_masked,
    and_F00F_eq_iff_of_masked, and_F0FF_eq_iff_of_masked]
  generalize fieldOp w = op, fieldN w = n, fieldKK w = kk
  simp [fieldOp, fieldN, fieldKK]
  tauto

theorem opcodeRowsF_miss_iff {w : Word} : (∀ r ∈ opcodeRowsF, w &&& r.mask ≠ r.value) ↔
    (fieldOp w = 0xF → fieldKK w ∉ [0x07, 0x0A, 0x15, 0x18, 0x1E, 0x29, 0x33, 0x55, 0x65]) := by
  simp (disch := decide) only [opcodeRowsF, List.forall_mem_cons, ne_eq, and_F0FF_eq_iff_of_masked]
  generalize fieldOp w = op, fieldKK w = kk
  simp [fieldOp, fieldKK, imp_and]

/-- The group of a word: those with no invalid word, and the six groups of R74 that have some. -/
theorem fieldOp_groups (op : BitVec 4) : op ∈ [0x1, 0x2, 0x3, 0x4, 0x6, 0x7, 0xA, 0xB, 0xC, 0xD] ∨
    op = 0x0 ∨ op = 0x5 ∨ op = 0x8 ∨ op = 0x9 ∨ op = 0xE ∨ op = 0xF := by
  revert op
  decide

/-- The low nibbles that group 8 leaves out. -/
theorem not_mem_aluNibbles_iff {n : Nat} (h : n ≤ 15) :
    n ∉ [0x0, 0x1, 0x2, 0x3, 0x4, 0x5, 0x6, 0x7, 0xE] ↔ n ∈ [0x8, 0x9, 0xA, 0xB, 0xC, 0xD, 0xF] := by
  revert n
  decide

/-- Outside group 0 a word is neither CLS nor RET. -/
theorem ne_group0_words_of_fieldOp_ne_zero {w : Word} (h : fieldOp w ≠ 0) : w ≠ 0x00E0 ∧ w ≠ 0x00EE :=
  ⟨fun e => h (e ▸ rfl), fun e => h (e ▸ rfl)⟩

/-- Settles O4: a word is invalid when no row of any part of the map fits its fields, which R74 lists by the field op. -/
theorem invalidWordsAreExactlyThese : Obligations.InvalidWordsAreExactlyThese := by
  intro w
  rw [decodeWord_eq_none_iff]
  simp only [opcodeTable, List.forall_mem_append]
  rw [opcodeRowsLow_miss_iff, opcodeRowsAlu_miss_iff, opcodeRowsHigh_miss_iff, opcodeRowsF_miss_iff,
    not_mem_aluNibbles_iff (fieldN_le w)]
  have outside := ne_group0_words_of_fieldOp_ne_zero (w := w)
  generalize fieldOp w = op at *
  rcases fieldOp_groups op with valid | rfl | rfl | rfl | rfl | rfl | rfl
  case inl =>
    simp only [List.mem_cons, List.not_mem_nil, or_false] at valid
    rcases valid with rfl | rfl | rfl | rfl | rfl | rfl | rfl | rfl | rfl | rfl <;> simp
  case inr.inl => simp
  all_goals
    obtain ⟨ne_cls, ne_ret⟩ := outside (by decide)
    simp only [ne_eq, ne_cls, ne_ret]
    simp

/-- Settles O5: each word is decoded by the opcode map. -/
theorem sampleWordsDecodeAsWritten : Obligations.SampleWordsDecodeAsWritten := by
  unfold Obligations.SampleWordsDecodeAsWritten
  decide

end Sys2Proof.Proofs
end

section
/-! SUPPORT. The display: what Toggle and Read answer inside and outside the grid, what DRW answers when its sprite lies in
memory and when it does not, and that the same pixels flipped twice are as before (spec 41_display.md). -/

namespace Sys2Proof.Proofs

open Sys2Proof Sys2Proof.Machine Sys2Proof.Laws

/-! ## Pixels -/

theorem toggle_outside (fb : Framebuffer) {x y : Nat} (outside : 64 ≤ x ∨ 32 ≤ y) :
    fb.toggle x y = .error (.outOfRangePixel x y) := dif_neg (by omega)

theorem readPixel_outside (fb : Framebuffer) {x y : Nat} (outside : 64 ≤ x ∨ 32 ≤ y) :
    fb.readPixel x y = .error (.outOfRangePixel x y) := dif_neg (by omega)

theorem readPixel_inside (fb : Framebuffer) {x y : Nat} (hx : x < 64) (hy : y < 32) :
    fb.readPixel x y = .ok (fb.pixel ⟨x, hx⟩ ⟨y, hy⟩) := dif_pos ⟨hx, hy⟩

theorem perform_read_outside (s : State) {x y : Nat} (outside : 64 ≤ x ∨ 32 ≤ y) :
    perform (.read x y) s = .fault (.outOfRangePixel x y) := by
  simp only [perform, hostRead, readPixel_outside s.fb outside, raise]

theorem perform_read_inside (s : State) {x y : Nat} (hx : x < 64) (hy : y < 32) : perform (.read x y) s = .next s := by
  rw [perform, hostRead, readPixel_inside s.fb hx hy]

theorem reply_of_next {a : Action} {s t : State} (h : perform a s = .next t) : reply a s = some (successReply a s) := by
  rw [reply, h]

theorem reply_of_fault {a : Action} {s : State} {e : Fault} (h : perform a s = .fault e) : reply a s = none := by
  rw [reply, h]

theorem pixelReply_inside (fb : Framebuffer) {x y : Nat} (hx : x < 64) (hy : y < 32) :
    pixelReply fb x y = .pixel (fb.pixel ⟨x, hx⟩ ⟨y, hy⟩) := by
  rw [pixelReply, readPixel_inside fb hx hy]

/-- Settles O15: CLS stores the clear framebuffer, and its frame is `exec_frame`. -/
theorem clsUnlightsEveryPixel : Obligations.ClsUnlightsEveryPixel :=
  fun s => ⟨_, rfl, rfl, exec_frame (i := .cls) (s := s) rfl, pixel_clear⟩

/-- Settles O18: `toggle_outside`, or `toggle_of_lt` with what `setPixel` does to each pixel. -/
theorem toggleFlipsOnePixel : Obligations.ToggleFlipsOnePixel := by
  refine fun fb x y => ⟨toggle_outside fb, fun hx hy => ⟨_, toggle_of_lt fb ⟨x, hx⟩ ⟨y, hy⟩, fun px py => ?_⟩⟩
  simp only [pixel_setPixel, Fin.ext_iff]
  by_cases here : px.val = x ∧ py.val = y
  · obtain ⟨rfl, rfl⟩ := here
    simp
  · simp only [if_neg here]

/-- Settles O19: the host's read by whether the pixel lies in the grid; the snapshot is immediate. -/
theorem readAndSnapshotReturnPixelsAndChangeNothing : Obligations.ReadAndSnapshotReturnPixelsAndChangeNothing := by
  refine ⟨fun s x y => ⟨fun outside => ?_, fun hx hy => ?_⟩, fun s => ⟨rfl, rfl⟩⟩
  · have fault := perform_read_outside s outside
    exact ⟨fault, reply_of_fault fault⟩
  · have next := perform_read_inside s hx hy
    exact ⟨next, (reply_of_next next).trans (congrArg some (pixelReply_inside s.fb hx hy))⟩

/-! ## The draw of a sprite -/

/-- The bytes read from memory, as the rows of a sprite, hit the pixels that the sprite in memory covers. -/
theorem spriteHits_readBytes (m : Memory) (a n cx cy : Nat) (px : Fin 64) (py : Fin 32) :
    SpriteHits (m.readBytes a n) 0 cx cy px py ↔ SpriteCovers m a n cx cy px py := by
  simp only [SpriteHits, SpriteCovers, length_readBytes, getElem_readBytes, Nat.zero_add]
  constructor
  · rintro ⟨r, hr, b, hb, bit, hx, hy⟩
    exact ⟨r, b, hr, hb, bit, hx, hy⟩
  · rintro ⟨r, b, hr, hb, bit, hx, hy⟩
    exact ⟨r, hr, b, hb, bit, hx, hy⟩

/-- `fb'` is `fb` with the pixels of `P` flipped, and no others. -/
def FlipsExactly (P : Fin 64 → Fin 32 → Prop) (fb fb' : Framebuffer) : Prop :=
  ∀ px py, (P px py → fb'.pixel px py = !fb.pixel px py) ∧ (¬ P px py → fb'.pixel px py = fb.pixel px py)

theorem flipsExactly_twice {P : Fin 64 → Fin 32 → Prop} {fb fb' fb'' : Framebuffer} (first : FlipsExactly P fb fb')
    (second : FlipsExactly P fb' fb'') : fb'' = fb := by
  refine framebuffer_ext fun px py => ?_
  obtain ⟨flipped, kept⟩ := first px py
  obtain ⟨flipped', kept'⟩ := second px py
  by_cases h : P px py
  · rw [flipped' h, flipped h, Bool.not_not]
  · rw [kept' h, kept h]

/-- The pixels that DRW Vx, Vy, n flips in `s`. -/
abbrev DrwCovers (s : State) (x y : Reg) (n : Nat) : Fin 64 → Fin 32 → Prop :=
  SpriteCovers s.mem s.i.toNat n (readV s x).toNat (readV s y).toNat

/-- The state DRW leaves when the framebuffer after it is `fb` and the collision flag is `collided`. -/
abbrev afterDrw (s : State) (fb : Framebuffer) (collided : Bool) : State :=
  advance (writeV (setFb s fb) vf (flagByte collided))

/-- A sprite that lies in memory is drawn: its pixels alone are flipped, and the flag says whether one of them was lit. -/
theorem exec_drw_ok {s : State} {x y : Reg} {n : Nat} (short : n ≤ 32) (fits : n = 0 ∨ s.i.toNat + n ≤ 0x1000) :
    ∃ fb collided, exec (.drw x y n) s = .next (afterDrw s fb collided) ∧ FlipsExactly (DrwCovers s x y n) s.fb fb ∧
      (collided = true ↔ ∃ px py, DrwCovers s x y n px py ∧ s.fb.pixel px py = true) := by
  obtain ⟨fb, collided, drawn, flips, collision⟩ :=
    drawRows_spec (readV s x).toNat (readV s y).toNat (s.mem.readBytes s.i.toNat n) 0 s.fb false (by simpa using short)
  simp only [spriteHits_readBytes] at flips collision
  refine ⟨fb, collided, ?_, flips, by simpa using collision⟩
  simp only [exec, execDrw, indexAddress, memRead_ok fits, drawSprite, drawn]

theorem exec_drw_error {s : State} {x y : Reg} {n : Nat} (beyond : ¬ (n = 0 ∨ s.i.toNat + n ≤ 0x1000)) :
    exec (.drw x y n) s = .fault (.addressOutOfRange s.pc (max s.i.toNat 0x1000)) := by
  simp only [exec, execDrw, indexAddress, memRead_error beyond, raise]

/-- A draw writes neither memory nor I, and of the registers only VF. -/
theorem drwCovers_afterDrw (s : State) (fb : Framebuffer) (collided : Bool) {x y : Reg} (hx : x ≠ vf) (hy : y ≠ vf) (n : Nat) :
    DrwCovers (afterDrw s fb collided) x y n = DrwCovers s x y n := by
  simp [DrwCovers, afterDrw, readV_writeV_other, hx, hy]

theorem wellFormed_drw_iff {x y : Reg} {n : Nat} : (Instr.drw x y n).WellFormed = true ↔ n ≤ 15 := decide_eq_true_iff

/-- Settles O16: `exec_drw_ok` with the frame of DRW, or `exec_drw_error`. -/
theorem drwFlipsExactlyTheSpritePixels : Obligations.DrwFlipsExactlyTheSpritePixels := by
  refine fun s x y n wf => ⟨fun inside => ?_, fun _ _ => exec_drw_error (by omega)⟩
  have short : n ≤ 32 := (wellFormed_drw_iff.mp wf).trans (by decide)
  have fits : n = 0 ∨ s.i.toNat + n ≤ 0x1000 := by omega
  obtain ⟨fb, collided, next, flips, collision⟩ := exec_drw_ok (x := x) (y := y) short fits
  have flag : readV (afterDrw s fb collided) vf = flagByte collided := by simp
  refine ⟨_, next, rfl, exec_frame next, flips, fun lit => ?_, fun unlit => ?_⟩
  · rw [flag, collision.mpr lit]
    rfl
  · rw [flag, Bool.eq_false_iff.mpr fun h => unlit (collision.mp h)]
    rfl

/-- Settles O17: the second draw flips the same pixels (`drwCovers_afterDrw`), so `flipsExactly_twice` applies. -/
theorem drawingTwiceRestoresTheFramebuffer : Obligations.DrawingTwiceRestoresTheFramebuffer := by
  intro s x y n wf hx hy inside
  have short : n ≤ 32 := (wellFormed_drw_iff.mp wf).trans (by decide)
  have fits : n = 0 ∨ s.i.toNat + n ≤ 0x1000 := by omega
  obtain ⟨fb, collided, first, flips, -⟩ := exec_drw_ok (x := x) (y := y) short fits
  obtain ⟨fb', collided', second, flips', -⟩ := exec_drw_ok (s := afterDrw s fb collided) (x := x) (y := y) short fits
  rw [drwCovers_afterDrw s fb collided hx hy] at flips'
  exact ⟨_, _, first, second, flipsExactly_twice flips flips'⟩

end Sys2Proof.Proofs
end

section
/-! SUPPORT. Control flow: what RET and CALL answer at each stack depth, the round trip of the two, and the pc of a jump and of a
skip (spec 42_control_flow.md R121 to R128). -/

namespace Sys2Proof.Proofs

open Sys2Proof Sys2Proof.Machine Sys2Proof.Laws

/-- What `exec` answers, its frame being the instruction's row of the table (`exec_frame`). -/
theorem completes_of_next {i : Instr} {s t : State} {p : Word} {post : State → Prop} (next : exec i s = .next t)
    (pc : t.pc = p) (holds : post t) : Completes i s (writesOf s i) p post :=
  ⟨t, next, pc, exec_frame next, holds⟩

/-! ## The stack -/

theorem exec_ret_error {s : State} (empty : s.sp.val = 0) : exec .ret s = .fault (.stackUnderflow s.pc) := by
  simp only [exec, execRet, pop_error empty, raise]

theorem exec_ret_ok {s : State} (held : s.sp.val ≠ 0) :
    exec .ret s = .next (setPc (setSp s ⟨s.sp.val - 1, by omega⟩) s.stack[s.sp]) := by
  simp only [exec, execRet, pop_ok held]

theorem exec_call_error {nnn : Addr12} {s : State} (full : s.sp.val = 15) :
    exec (.call nnn) s = .fault (.stackOverflow s.pc) := by
  simp only [exec, execCall, push_error full, raise]

theorem exec_call_ok {nnn : Addr12} {s : State} (room : s.sp.val + 1 < 16) :
    exec (.call nnn) s =
      .next (setPc (setSlot (setSp s ⟨s.sp.val + 1, room⟩) ⟨s.sp.val + 1, room⟩ (s.pc + 2)) (addrWord nnn)) := by
  simp only [exec, execCall, push_ok room]

theorem slot_setSlot_same (s : State) (j : Fin 16) (a : Word) : (setSlot s j a).stack[j] = a :=
  (slot_setSlot s j j a).trans (if_pos rfl)

/-- A RET takes back what was pushed last: SP is as before the push and pc is the address, which its slot keeps. -/
theorem exec_ret_pushed {s : State} (room : s.sp.val + 1 < 16) (a elsewhere : Word) :
    exec .ret (setPc (setSlot (setSp s ⟨s.sp.val + 1, room⟩) ⟨s.sp.val + 1, room⟩ a) elsewhere) =
      .next (setPc (setSlot s ⟨s.sp.val + 1, room⟩ a) a) := by
  rw [exec_ret_ok (Nat.succ_ne_zero _)]
  exact congrArg (fun p => Host.Outcome.next (setPc (setSlot s ⟨s.sp.val + 1, room⟩ a) p)) (slot_setSlot_same s _ a)

/-- Settles O20: `exec_ret_error` or `exec_ret_ok`. -/
theorem retPopsTheReturnAddress : Obligations.RetPopsTheReturnAddress :=
  fun _ => ⟨exec_ret_error, fun held => completes_of_next (exec_ret_ok (Nat.ne_of_gt held)) rfl rfl⟩

theorem addrWord_eq (nnn : Addr12) : addrWord nnn = BitVec.ofNat 16 nnn.toNat := (BitVec.ofNat_toNat 16 nnn).symm

/-- Settles O21: `exec_call_error`, or `exec_call_ok` and the slot just written (`slot_setSlot_same`). -/
theorem callPushesTheReturnAddress : Obligations.CallPushesTheReturnAddress := by
  refine fun s nnn => ⟨exec_call_error, fun room => ?_⟩
  exact completes_of_next (exec_call_ok (Nat.succ_lt_succ room)) (addrWord_eq nnn) ⟨rfl, slot_setSlot_same _ _ _⟩

/-- Settles O22: `exec_ret_pushed` leaves only the slot of the CALL and pc to differ. -/
theorem retUndoesCall : Obligations.RetUndoesCall := by
  intro s nnn room
  refine ⟨_, exec_call_ok (Nat.succ_lt_succ room), fun elsewhere => ?_⟩
  refine ⟨_, exec_ret_pushed (Nat.succ_lt_succ room) (s.pc + 2) elsewhere, rfl, ?_⟩
  exact frame_then_setPc (frame_setSlot s _ ((mem_nextSlots s _).mpr rfl)) _

/-! ## Jumps -/

/-- Settles O23: the target is `addrWord_eq`, and the row of JP lists nothing. -/
theorem jpSetsPc : Obligations.JpSetsPc :=
  fun _ nnn => completes_of_next rfl (addrWord_eq nnn) trivial

/-- A jump to the address pc already holds answers the same state. -/
theorem exec_jp_self {s : State} {nnn : Addr12} (self : s.pc.toNat = nnn.toNat) : exec (.jp nnn) s = .next s := by
  have target : addrWord nnn = s.pc := BitVec.eq_of_toNat_eq ((toNat_addrWord nnn).trans self.symm)
  show Host.Outcome.next (setPc s (addrWord nnn)) = .next s
  rw [target]
  rfl

/-- Settles O24: the word at pc decodes to the jump (`decodeWord_encode`), so the step is `exec_jp_self`. -/
theorem selfJumpChangesNothing : Obligations.SelfJumpChangesNothing := by
  intro s nnn awake fetchable self word
  have decoded : decodeWord (wordAtPc s) = some (.jp nnn) := by rw [word, decodeWord_encode rfl]
  rw [step_of_decoded awake fetchable decoded, exec_jp_self self]

/-- Settles O25: `toNat_offsetTarget`, the sum fits 16 bits. -/
theorem jpV0AddsV0WithoutWrap : Obligations.JpV0AddsV0WithoutWrap :=
  fun s nnn => completes_of_next rfl rfl (toNat_offsetTarget s nnn)

/-! ## Skips -/

/-- An instruction that answers a skip on a test of `P` moves pc by 4 or by 2 and changes nothing else. -/
theorem completes_of_skipIf {i : Instr} {s : State} {test : Bool} {P : Prop} [Decidable P]
    (next : exec i s = .next (skipIf s test)) (tests : test = true ↔ P) :
    Completes i s {} (if P then s.pc + 4 else s.pc + 2) fun _ => True :=
  ⟨_, next, (skipIf_pc s test).trans (if_congr tests rfl rfl), frame_skipIf _ s test, trivial⟩

/-- Settles O26: both are skips (`completes_of_skipIf`), on equality and on difference. -/
theorem byteSkipsCompareVxWithKk : Obligations.ByteSkipsCompareVxWithKk :=
  fun _ _ _ => ⟨completes_of_skipIf rfl beq_iff_eq, completes_of_skipIf rfl bne_iff_ne⟩

/-- Settles O27: as O26, with the byte of Vy for kk. -/
theorem registerSkipsCompareVxWithVy : Obligations.RegisterSkipsCompareVxWithVy :=
  fun _ _ _ => ⟨completes_of_skipIf rfl beq_iff_eq, completes_of_skipIf rfl bne_iff_ne⟩

end Sys2Proof.Proofs
end

section
/-! SUPPORT. Loads and ALU: the flags as numbers, the registers after a result and its flag are written in that order, and what
each instruction of the family leaves in Vx and VF (spec 43_alu_load.md R140 to R153). -/

namespace Sys2Proof.Proofs

open Sys2Proof Sys2Proof.Machine Sys2Proof.Laws

/-! ## Flags and results as numbers -/

theorem flagByte_decide (P : Prop) [Decidable P] : flagByte (decide P) = if P then 1 else 0 :=
  if_congr decide_eq_true_iff rfl rfl

theorem toNat_shiftedOutRight (a : Byte) : (shiftedOutRight a).toNat = a.toNat % 2 := by
  rw [shiftedOutRight, toNat_flagByte, BitVec.getLsbD, Nat.toNat_testBit, pow_zero, Nat.div_one]

theorem toNat_shiftedOutLeft (a : Byte) : (shiftedOutLeft a).toNat = a.toNat / 128 := by
  have bit : (shiftedOutLeft a).toNat = a.toNat / 2 ^ 7 % 2 := by
    rw [shiftedOutLeft, toNat_flagByte, BitVec.getLsbD, Nat.toNat_testBit]
  have := a.isLt
  omega

/-- The difference of bytes is the difference of integers mod 256 (43_alu_load.md R140). -/
theorem toNat_byte_sub (a b : Byte) : ((a - b).toNat : Int) = (a.toNat - b.toNat : Int) % 256 := by
  have := b.isLt
  rw [BitVec.toNat_sub]
  omega

theorem toNat_byte_shiftRight_one (a : Byte) : (a >>> 1).toNat = a.toNat / 2 := by
  rw [BitVec.toNat_ushiftRight, Nat.shiftRight_eq_div_pow, pow_one]

theorem toNat_byte_shiftLeft_one (a : Byte) : (a <<< 1).toNat = 2 * a.toNat % 256 := by
  rw [BitVec.toNat_shiftLeft, Nat.shiftLeft_eq, pow_one, Nat.mul_comm]

/-! ## Results without a flag -/

/-- Settles O28: Vx reads back as written (`readV_writeV_same`), and the row of LD lists Vx alone. -/
theorem ldByteLoadsKk : Obligations.LdByteLoadsKk :=
  fun s x kk => completes_of_next rfl rfl (readV_writeV_same s x kk)

/-- Settles O29: as O28, the sum of bytes being the sum mod 256. -/
theorem addByteWrapsWithoutCarry : Obligations.AddByteWrapsWithoutCarry := by
  refine fun s x kk => completes_of_next rfl rfl ?_
  rw [readV_advance, readV_writeV_same, BitVec.toNat_add]

/-- Settles O30: as O28, each bit of the result being the operation on the operands' bits. -/
theorem logicWritesOnlyVx : Obligations.LogicWritesOnlyVx := by
  refine fun s x y => ⟨completes_of_next rfl rfl (readV_writeV_same s x _), completes_of_next rfl rfl fun k => ?_,
    completes_of_next rfl rfl fun k => ?_, completes_of_next rfl rfl fun k => ?_⟩
  · rw [readV_advance, readV_writeV_same, BitVec.getLsbD_or]
  · rw [readV_advance, readV_writeV_same, BitVec.getLsbD_and]
  · rw [readV_advance, readV_writeV_same, BitVec.getLsbD_xor]

/-- Settles O34: as O30 for AND, whatever byte the draw is, the draw being counted before Vx is written. -/
theorem rndMasksAFreshDraw : Obligations.RndMasksAFreshDraw := by
  refine fun s x kk => completes_of_next rfl rfl ⟨fun k => ?_, rfl⟩
  rw [readV_advance, readV_writeV_same, drawRandom, BitVec.getLsbD_and]

/-! ## Results with a flag -/

/-- An instruction that answers a result in Vx and then a flag in VF: the flag always stays, the result unless Vx is VF. -/
theorem completes_of_resultAndFlag {i : Instr} {s : State} {x : Reg} {result flag : Byte} {post : State → Prop}
    (next : exec i s = .next (advance (writeResultAndFlag s x result flag)))
    (holds : ∀ t, (x ≠ vf → readV t x = result) → readV t vf = flag → post t) :
    Completes i s (writesOf s i) (s.pc + 2) post := by
  refine completes_of_next next rfl (holds _ (fun other => ?_) (readV_writeV_same _ _ _))
  rw [readV_advance, writeResultAndFlag, readV_writeV_other _ _ other, readV_writeV_same]

/-- Settles O31: the result and the carry stay as `completes_of_resultAndFlag` says. -/
theorem addRegWritesSumAndCarry : Obligations.AddRegWritesSumAndCarry := by
  refine fun s x y => completes_of_resultAndFlag rfl fun t result flag => ⟨fun other => ?_, ?_⟩
  · rw [result other, BitVec.toNat_add]
  · rw [flag, carryFlag, flagByte_decide]

/-- An instruction that answers a difference of bytes and its no-borrow. -/
theorem completes_of_difference {i : Instr} {s : State} {x : Reg} {a b : Byte}
    (next : exec i s = .next (advance (writeResultAndFlag s x (a - b) (noBorrowFlag a b)))) :
    Completes i s (writesOf s i) (s.pc + 2) fun t =>
      (x ≠ vf → ((readV t x).toNat : Int) = (a.toNat - b.toNat : Int) % 256) ∧
      readV t vf = if a.toNat ≥ b.toNat then 1 else 0 := by
  refine completes_of_resultAndFlag next fun t result flag => ⟨fun other => ?_, ?_⟩
  · rw [result other, toNat_byte_sub]
  · rw [flag, noBorrowFlag, flagByte_decide]

/-- Settles O32: SUB is the difference Vx - Vy and SUBN is Vy - Vx (`completes_of_difference`). -/
theorem subAndSubnWriteDifferenceAndNoBorrow : Obligations.SubAndSubnWriteDifferenceAndNoBorrow :=
  fun _ _ _ => ⟨completes_of_difference rfl, completes_of_difference rfl⟩

/-- Settles O33: the shifts and the bits shifted out as numbers, neither reading Vy. -/
theorem shiftsWriteResultAndShiftedOutBit : Obligations.ShiftsWriteResultAndShiftedOutBit := by
  refine fun s x y => ⟨completes_of_resultAndFlag rfl fun t result flag => ⟨fun other => ?_, ?_⟩,
    completes_of_resultAndFlag rfl fun t result flag => ⟨fun other => ?_, ?_⟩⟩
  · rw [result other, toNat_byte_shiftRight_one]
  · rw [flag, toNat_shiftedOutRight]
  · rw [result other, toNat_byte_shiftLeft_one]
  · rw [flag, toNat_shiftedOutLeft]

end Sys2Proof.Proofs
end

section
/-! SUPPORT. Index register and memory: the values I receives, what Fx33, Fx55 and Fx65 answer when their access lies in memory and
when it does not, and that Fx65 loads back what Fx55 stored (spec 44_index_memory.md R170 to R175). -/

namespace Sys2Proof.Proofs

open Sys2Proof Sys2Proof.Machine Sys2Proof.Laws

/-! ## The index register -/

theorem toNat_indexPlus (s : State) (x : Reg) : (indexPlus s x).toNat = (s.i.toNat + (readV s x).toNat) % 65536 :=
  BitVec.toNat_ofNat _ 16

/-- Settles O35: I gets the values of `toNat_addrWord` and `toNat_indexPlus`, and both rows list I alone. -/
theorem indexIsLoadedAndAdded : Obligations.IndexIsLoadedAndAdded :=
  ⟨fun _ nnn => completes_of_next rfl rfl (toNat_addrWord nnn), fun s x => completes_of_next rfl rfl (toNat_indexPlus s x)⟩

/-- Settles O36: the value of I is `toNat_glyphAddress`. -/
theorem ldFPointsAtTheGlyph : Obligations.LdFPointsAtTheGlyph :=
  fun s x => completes_of_next rfl rfl (toNat_glyphAddress (readV s x))

/-- An access whose last address, `a + k`, is above 0xFFF neither is empty nor ends at or below it. -/
theorem access_beyond {a k : Nat} (beyond : 0xFFF < a + k) : ¬ (k + 1 = 0 ∨ a + (k + 1) ≤ 0x1000) := by
  omega

/-! ## Decimal digits -/

/-- Each of the three bytes is its digit as a number, hundreds first. -/
theorem map_toNat_decimalDigits (b : Byte) :
    (decimalDigits b).map BitVec.toNat = [b.toNat / 100, b.toNat / 10 % 10, b.toNat % 10] := by
  have := b.isLt
  simp only [decimalDigits, List.map_cons, List.map_nil, BitVec.toNat_ofNat, List.cons.injEq, and_true]
  omega

theorem decimalDigits_fit {a : Nat} (b : Byte) (valid : a + 2 ≤ 0xFFF) : a + (decimalDigits b).length ≤ 0x1000 :=
  Nat.succ_le_succ valid

/-- Fx33 at valid addresses stores the digits of Vx from I on and moves pc on. -/
theorem exec_ldB_ok {s : State} {x : Reg} (valid : s.i.toNat + 2 ≤ 0xFFF) :
    exec (.ldB x) s = .next (advance (setMem s (s.mem.writeBytes s.i.toNat (decimalDigits (readV s x))))) := by
  rw [exec, execLdB, indexAddress, memWrite_ok (.inr (decimalDigits_fit _ valid))]

theorem exec_ldB_error {s : State} {x : Reg} (beyond : 0xFFF < s.i.toNat + 2) :
    exec (.ldB x) s = .fault (.addressOutOfRange s.pc (max s.i.toNat 0x1000)) := by
  have invalid : ¬ ((decimalDigits (readV s x)).length = 0 ∨ s.i.toNat + (decimalDigits (readV s x)).length ≤ 0x1000) :=
    access_beyond beyond
  simp only [exec, execLdB, indexAddress, memWrite_error invalid, raise]

/-- After the digits are stored at valid addresses from `a` on, the byte at `a + k` is the digit at place `k`. -/
theorem toNat_read_writeBytes_decimalDigits {m : Memory} (wf : m.wf) {a : Nat} (valid : a + 2 ≤ 0xFFF) (b : Byte) {k : Nat}
    (hk : k < 3) : ((m.writeBytes a (decimalDigits b)).read (a + k)).toNat =
      [b.toNat / 100, b.toNat / 10 % 10, b.toNat % 10][k] := by
  rw [read_writeBytes wf (.inr (decimalDigits_fit b valid)) hk]
  exact (List.getElem_map BitVec.toNat).symm.trans (List.getElem_of_eq (map_toNat_decimalDigits b) hk)

/-- Settles O37: `exec_ldB_ok` with each digit read back, or `exec_ldB_error`. -/
theorem ldBStoresTheDecimalDigits : Obligations.LdBStoresTheDecimalDigits := by
  refine fun s x wf => ⟨fun valid => completes_of_next (exec_ldB_ok valid) rfl ?_, exec_ldB_error⟩
  have digit {k : Nat} (hk : k < 3) := toNat_read_writeBytes_decimalDigits wf valid (readV s x) hk
  exact ⟨digit (k := 0) (by decide), digit (k := 1) (by decide), digit (k := 2) (by decide)⟩

/-! ## Registers stored and loaded -/

theorem exec_storeRegs_error {s : State} {x : Reg} (beyond : 0xFFF < s.i.toNat + x.val) :
    exec (.storeRegs x) s = .fault (.addressOutOfRange s.pc (max s.i.toNat 0x1000)) := by
  have invalid : ¬ ((registersUpTo s x).length = 0 ∨ s.i.toNat + (registersUpTo s x).length ≤ 0x1000) := by
    rw [length_registersUpTo]
    exact access_beyond beyond
  simp only [exec, execStoreRegs, indexAddress, memWrite_error invalid, raise]

/-- Settles O38: `exec_storeRegs_ok` with each register read back, or `exec_storeRegs_error`. -/
theorem storeRegsStoresV0ToVx : Obligations.StoreRegsStoresV0ToVx := fun _ _ wf =>
  ⟨fun valid => completes_of_next (exec_storeRegs_ok valid) rfl fun _ stored => read_writeBytes_registersUpTo wf valid stored,
    exec_storeRegs_error⟩

/-- Fx65 at valid addresses loads V0..Vx from I on and moves pc on. -/
theorem exec_loadRegs_ok {s : State} {x : Reg} (valid : s.i.toNat + x.val ≤ 0xFFF) :
    exec (.loadRegs x) s = .next (advance (loadRegisters (s.mem.readBytes s.i.toNat (x.val + 1)) 0 s)) := by
  rw [exec, execLoadRegs, indexAddress, memRead_ok (.inr (Nat.succ_le_succ valid))]

theorem exec_loadRegs_error {s : State} {x : Reg} (beyond : 0xFFF < s.i.toNat + x.val) :
    exec (.loadRegs x) s = .fault (.addressOutOfRange s.pc (max s.i.toNat 0x1000)) := by
  simp only [exec, execLoadRegs, indexAddress, memRead_error (access_beyond beyond), raise]

/-- Settles O39: `exec_loadRegs_ok` with what each register then holds, or `exec_loadRegs_error`. -/
theorem loadRegsLoadsV0ToVx : Obligations.LoadRegsLoadsV0ToVx := by
  refine fun s x => ⟨fun valid => completes_of_next (exec_loadRegs_ok valid) ?_ fun r loaded => ?_, exec_loadRegs_error⟩
  · rw [advance_pc, loadRegisters_eq]
  · rw [readV_advance, readV_loadRegisters_readBytes, if_pos loaded]

/-- Settles O40: Fx55 keeps I and stores each register where Fx65 reads it (O38, then O39 from the other state). -/
theorem loadRegsRestoresWhatStoreRegsStored : Obligations.LoadRegsRestoresWhatStoreRegsStored := by
  intro s x wf valid
  obtain ⟨t, next, -, frame, stored⟩ := (storeRegsStoresV0ToVx s x wf).1 valid
  refine ⟨t, next, fun u sameIndex sameMemory => ?_⟩
  have index : u.i = s.i := sameIndex.trans (frame.index rfl)
  obtain ⟨w, next', -, -, loaded⟩ := (loadRegsLoadsV0ToVx u x).1 (index ▸ valid)
  refine ⟨w, next', fun r hr => ?_⟩
  rw [loaded r hr, index, sameMemory, stored r hr]

end Sys2Proof.Proofs
end

section
/-! SUPPORT. Timers and keypad: what a key skip and a wait step answer, what one report of a key does to the state, and the latch
after a list of reports (spec 45_timers_keypad.md R190 to R200). -/

namespace Sys2Proof.Proofs

open Sys2Proof Sys2Proof.Machine Sys2Proof.Laws

/-! ## Timers and key skips -/

/-- Settles O42: each of the three answers one write and moves pc on, and its row lists that write. -/
theorem timerMovesCopyOneByte : Obligations.TimerMovesCopyOneByte :=
  fun s x => ⟨completes_of_next rfl rfl (readV_writeV_same s x s.dt), completes_of_next rfl rfl rfl, completes_of_next rfl rfl rfl⟩

/-- A register that holds the index of key `k` names that key. -/
theorem keyOperand_of_val_eq {s : State} {x : Reg} {k : Key} (index : k.val = (readV s x).toNat) : keyOperand s x = .ok k :=
  (keyOperand_ok (index ▸ k.isLt)).trans (congrArg Except.ok (Fin.ext index.symm))

theorem exec_skp_ok {s : State} {x : Reg} {k : Key} (index : k.val = (readV s x).toNat) :
    exec (.skp x) s = .next (skipIf s (keyDown s k)) := by
  simp only [exec, execSkp, keyOperand_of_val_eq index]

theorem exec_sknp_ok {s : State} {x : Reg} {k : Key} (index : k.val = (readV s x).toNat) :
    exec (.sknp x) s = .next (skipIf s (!keyDown s k)) := by
  simp only [exec, execSknp, keyOperand_of_val_eq index]

theorem exec_skp_error {s : State} {x : Reg} (invalid : 15 < (readV s x).toNat) :
    exec (.skp x) s = .fault (.invalidKeyIndex s.pc (readV s x)) := by
  simp only [exec, execSkp, keyOperand_error (Nat.not_lt.mpr invalid), raise]

theorem exec_sknp_error {s : State} {x : Reg} (invalid : 15 < (readV s x).toNat) :
    exec (.sknp x) s = .fault (.invalidKeyIndex s.pc (readV s x)) := by
  simp only [exec, execSknp, keyOperand_error (Nat.not_lt.mpr invalid), raise]

/-- Settles O43: a key index above 15 is the operand's error; else both are skips (`completes_of_skipIf`), on down and on up. -/
theorem keySkipsTestTheKeyInVx : Obligations.KeySkipsTestTheKeyInVx := fun _ _ =>
  ⟨fun invalid => ⟨exec_skp_error invalid, exec_sknp_error invalid⟩, fun _ index =>
    ⟨completes_of_skipIf (exec_skp_ok index) Iff.rfl, completes_of_skipIf (exec_sknp_ok index) (Bool.not_eq_true' _).to_iff⟩⟩

/-! ## The wait step -/

theorem step_of_unlatched {s : State} {r : Reg} (waiting : s.aw = some r) (unlatched : s.kp = none) : step s = .next s := by
  rw [step_of_waiting waiting, waitStep_of_none unlatched]

/-- The state in which the wait for register `r` ends once key `k` is latched. -/
def afterWait (s : State) (r : Reg) (k : Key) : State :=
  advance (setKp (setAw (writeV s r (BitVec.ofNat 8 k.val)) none) none)

theorem step_of_latched {s : State} {r : Reg} {k : Key} (waiting : s.aw = some r) (latched : s.kp = some k) :
    step s = .next (afterWait s r k) := by
  rw [step_of_waiting waiting, waitStep_of_some latched, afterWait]

/-- The key's index fits a byte, so Vr holds it unchanged. -/
theorem toNat_readV_afterWait (s : State) (r : Reg) (k : Key) : (readV (afterWait s r k) r).toNat = k.val := by
  rw [afterWait, readV_advance, readV_setKp, readV_setAw, readV_writeV_same, BitVec.toNat_ofNat]
  exact Nat.mod_eq_of_lt (k.isLt.trans (by decide))

theorem frame_setKp {w : Writes} (s : State) (k : Option Key) (listed : w.kp = true) : Frame w s (setKp s k) := by
  constructor <;> simp [listed]

theorem frame_afterWait (s : State) (r : Reg) (k : Key) :
    Frame { regs := [r], aw := true, kp := true } s (afterWait s r k) :=
  frame_trans (frame_trans (frame_setAw s none rfl) (frame_setKp _ none rfl)) (frame_writeV _ _ _ (.head _))

/-- A wait step neither reads nor writes memory. -/
theorem waitStep_setMem (r : Reg) (s : State) (m : Memory) : waitStep r (setMem s m) = setMem (waitStep r s) m := by
  cases press : s.kp with
  | none => rw [waitStep_of_none press, waitStep_of_none (s := setMem s m) press]
  | some k =>
    rw [waitStep_of_some press, waitStep_of_some (s := setMem s m) press]
    rfl

/-- Settles O45: `step_of_unlatched` or `step_of_latched`, and `waitStep_setMem` for every memory. -/
theorem waitStepEndsOnlyWithALatchedPress : Obligations.WaitStepEndsOnlyWithALatchedPress := by
  refine fun s r waiting => ⟨step_of_unlatched waiting, fun k latched => ?_, waitStep r s, step_of_waiting waiting, fun m => ?_⟩
  · exact ⟨_, step_of_latched waiting latched, toNat_readV_afterWait s r k, rfl, rfl, rfl, frame_afterWait s r k⟩
  · rw [step_of_waiting (s := setMem s m) waiting, waitStep_setMem]

/-! ## Reports of keys -/

/-- What one report offers the latch: its key if it is a press. -/
def pressOf (k : Key) (down : Bool) : Option Key := if down then some k else none

/-- The state after a report of key `k`: its key state, and the latch, which a press during a wait fills if it is empty. -/
def afterReport (s : State) (k : Key) (down : Bool) : State :=
  setKp (setKeyState s k down) (if s.aw.isSome then s.kp.or (pressOf k down) else s.kp)

theorem setKey_val (k : Key) (down : Bool) (s : State) : setKey k.val down s = .next (afterReport s k down) := by
  have latch : (if down && s.aw.isSome && s.kp.isNone then some k else s.kp) =
      if s.aw.isSome then s.kp.or (pressOf k down) else s.kp := by
    cases s.aw <;> cases s.kp <;> cases down <;> rfl
  rw [afterReport, ← latch]
  exact (dif_pos k.isLt).trans (congrArg Host.Outcome.next (latchPress_eq _ k down))

theorem kp_afterReport_of_waiting {s : State} (waiting : s.aw ≠ none) (k : Key) (down : Bool) :
    (afterReport s k down).kp = s.kp.or (pressOf k down) :=
  if_pos (Option.isSome_iff_ne_none.mpr waiting)

theorem kp_afterReport_of_awake {s : State} (awake : s.aw = none) (k : Key) (down : Bool) : (afterReport s k down).kp = s.kp :=
  if_neg (by rw [awake]; exact Bool.false_ne_true)

/-- Settles O44: without a press the step after Fx0A is `step_of_unlatched`; a press is latched, so the step after it is
`step_of_latched`. -/
theorem ldVxKBeginsTheWait : Obligations.LdVxKBeginsTheWait := by
  refine fun s x => completes_of_next (t := setAw s (some x)) rfl rfl
    ⟨rfl, step_of_unlatched (s := setAw s (some x)) rfl, fun k unlatched => ?_⟩
  have latched : (afterReport (setAw s (some x)) k true).kp = some k := by
    rw [kp_afterReport_of_waiting (Option.some_ne_none x), setAw_kp, unlatched, Option.none_or, pressOf, if_pos rfl]
  exact ⟨_, _, setKey_val k true _, step_of_latched rfl latched, toNat_readV_afterWait _ x k, rfl, rfl⟩

theorem reportKeys_cons (k : Key) (down : Bool) (rest : List (Key × Bool)) (s : State) :
    reportKeys ((k, down) :: rest) s = reportKeys rest (afterReport s k down) := by
  rw [reportKeys, setKey_val, settle]

theorem firstPress_cons (k : Key) (down : Bool) (rest : List (Key × Bool)) :
    firstPress ((k, down) :: rest) = (pressOf k down).or (firstPress rest) := by
  cases down <;> rfl

/-- During a wait the latch keeps its key, or else gets the first press. -/
theorem kp_reportKeys_of_waiting {s : State} (waiting : s.aw ≠ none) (reports : List (Key × Bool)) :
    (reportKeys reports s).kp = s.kp.or (firstPress reports) := by
  induction reports generalizing s with
  | nil => exact Option.or_none.symm
  | cons report rest ih =>
    obtain ⟨k, down⟩ := report
    rw [reportKeys_cons, ih (s := afterReport s k down) waiting, kp_afterReport_of_waiting waiting, Option.or_assoc,
      firstPress_cons]

theorem kp_reportKeys_of_awake {s : State} (awake : s.aw = none) (reports : List (Key × Bool)) :
    (reportKeys reports s).kp = s.kp := by
  induction reports generalizing s with
  | nil => rfl
  | cons report rest ih =>
    obtain ⟨k, down⟩ := report
    rw [reportKeys_cons, ih (s := afterReport s k down) awake, kp_afterReport_of_awake awake]

/-- Reports change key states and the latch alone. -/
theorem reportKeys_eq (reports : List (Key × Bool)) (s : State) :
    reportKeys reports s = { s with keys := (reportKeys reports s).keys, kp := (reportKeys reports s).kp } := by
  induction reports generalizing s with
  | nil => rfl
  | cons report rest ih =>
    obtain ⟨k, down⟩ := report
    rw [reportKeys_cons]
    exact ih (afterReport s k down)

/-- Settles O46: the latch during a wait is `kp_reportKeys_of_waiting`, empty or set; outside a wait no report touches it. -/
theorem firstPressOfAWaitIsLatched : Obligations.FirstPressOfAWaitIsLatched := by
  refine fun s reports => ⟨fun waiting unlatched => ?_, fun waiting latched => ?_,
    fun awake => kp_reportKeys_of_awake awake reports, reportKeys_eq reports s⟩
  · rw [kp_reportKeys_of_waiting waiting, unlatched, Option.none_or]
  · rw [kp_reportKeys_of_waiting waiting, Option.or_of_isSome (Option.isSome_iff_ne_none.mpr latched)]

end Sys2Proof.Proofs
end

section
/-! SUPPORT. Errors and the host's operations: an instruction, a step and an action each end with the error their rule gives, or
complete, and an error of a step repeats (spec 60_exceptions.md R210 to R226). -/

namespace Sys2Proof.Proofs

open Sys2Proof Sys2Proof.Machine Sys2Proof.Laws

/-! ## Outcomes by the error a rule gives -/

/-- The outcome is the error that a rule gives, and a next state when it gives none. -/
inductive EndsBy : Option Fault → Outcome → Prop where
  /-- the rule gives no error -/
  | next (t : State) : EndsBy none (.next t)
  /-- the rule gives an error -/
  | fault (e : Fault) : EndsBy (some e) (.fault e)

theorem endsBy_of_next {o : Outcome} {t : State} (h : o = .next t) : EndsBy none o := h ▸ .next t

theorem endsBy_of_fault {o : Outcome} {e : Fault} (h : o = .fault e) : EndsBy (some e) o := h ▸ .fault e

theorem endsBy_fault_iff {error : Option Fault} {o : Outcome} {e : Fault} (h : EndsBy error o) :
    o = .fault e ↔ error = some e := by
  cases h <;> simp

theorem endsBy_completes {error : Option Fault} {o : Outcome} (h : EndsBy error o) (errorless : error = none) :
    ∃ t, o = .next t := by
  cases h with
  | next t => exact ⟨t, rfl⟩
  | fault e => cases errorless

/-- An error unless a check passes: the shape of the accesses, the key operand, `load` and the pixel read. -/
theorem endsBy_unless {o : Outcome} {P : Prop} [Decidable P] {e : Fault} (completes : P → ∃ t, o = .next t)
    (fails : ¬ P → o = .fault e) : EndsBy (if P then none else some e) o := by
  split
  · next passed =>
    obtain ⟨t, next⟩ := completes passed
    exact endsBy_of_next next
  · next failed => exact endsBy_of_fault (fails failed)

/-- An error when the stack is at its end: the shape of RET and CALL. -/
theorem endsBy_when {o : Outcome} {P : Prop} [Decidable P] {e : Fault} (fails : P → o = .fault e)
    (completes : ¬ P → ∃ t, o = .next t) : EndsBy (if P then some e else none) o := by
  rw [← ite_not]
  exact endsBy_unless completes fun atEnd => fails (Decidable.not_not.mp atEnd)

/-! ## Instructions and steps -/

/-- A sprite that lies in memory is drawn, whatever the row count: Toggle gets coordinates inside the grid only. -/
theorem exec_drw_completes {s : State} {x y : Reg} {n : Nat} (fits : n = 0 ∨ s.i.toNat + n ≤ 0x1000) :
    ∃ t, exec (.drw x y n) s = .next t := by
  obtain ⟨fb, collided, drawn⟩ :=
    drawSprite_ok (readV s x).toNat (readV s y).toNat (s.mem.readBytes s.i.toNat n) s.fb
  exact ⟨afterDrw s fb collided, by simp only [exec, execDrw, indexAddress, memRead_ok fits, drawn]⟩

/-- An instruction ends by its own error; those of the last case have none and complete at once. -/
theorem exec_endsBy (i : Instr) (s : State) : EndsBy (ownError s i) (exec i s) := by
  cases i with
  | ret => exact endsBy_when exec_ret_error fun held => ⟨_, exec_ret_ok held⟩
  | call nnn => exact endsBy_when exec_call_error fun room => ⟨_, exec_call_ok (by omega)⟩
  | drw x y n => exact endsBy_unless exec_drw_completes exec_drw_error
  | skp x =>
    exact endsBy_unless (fun valid => ⟨_, exec_skp_ok (k := ⟨(readV s x).toNat, Nat.lt_succ_of_le valid⟩) rfl⟩)
      fun invalid => exec_skp_error (Nat.lt_of_not_le invalid)
  | sknp x =>
    exact endsBy_unless (fun valid => ⟨_, exec_sknp_ok (k := ⟨(readV s x).toNat, Nat.lt_succ_of_le valid⟩) rfl⟩)
      fun invalid => exec_sknp_error (Nat.lt_of_not_le invalid)
  | ldB x => exact endsBy_unless (fun fits => ⟨_, exec_ldB_ok (by omega)⟩) fun beyond => exec_ldB_error (by omega)
  | storeRegs x =>
    exact endsBy_unless (fun fits => ⟨_, exec_storeRegs_ok (by omega)⟩) fun beyond => exec_storeRegs_error (by omega)
  | loadRegs x =>
    exact endsBy_unless (fun fits => ⟨_, exec_loadRegs_ok (by omega)⟩) fun beyond => exec_loadRegs_error (by omega)
  | _ => exact .next _

/-- Settles O8: `exec_endsBy`. -/
theorem instructionCompletesOrRaisesItsOwnError : Obligations.InstructionCompletesOrRaisesItsOwnError :=
  fun i s => ⟨fun _ => (endsBy_fault_iff (exec_endsBy i s)).mpr, endsBy_completes (exec_endsBy i s)⟩

/-- A step ends by its first failing check, in the order of R218. -/
theorem step_endsBy (s : State) : EndsBy (stepError s) (step s) := by
  unfold stepError
  cases wait : s.aw with
  | some r => exact endsBy_of_next (step_of_waiting wait)
  | none =>
    rw [Option.isSome_none, if_neg Bool.false_ne_true]
    split
    · next beyond => exact endsBy_of_fault (step_of_unfetchable wait (Nat.not_le.mpr beyond))
    · next within =>
      have fetchable : s.pc.toNat ≤ 0xFFE := Nat.not_lt.mp within
      cases decoded : decodeWord (wordAtPc s) with
      | none => exact endsBy_of_fault (step_of_invalidOpcode wait fetchable decoded)
      | some i =>
        rw [step_of_decoded wait fetchable decoded]
        exact exec_endsBy i s

theorem step_fault_iff {s : State} {e : Fault} : step s = .fault e ↔ stepError s = some e :=
  endsBy_fault_iff (step_endsBy s)

/-- Settles O7: `step_endsBy`. -/
theorem stepReportsTheFirstFailingCheck : Obligations.StepReportsTheFirstFailingCheck :=
  fun s => ⟨fun _ => step_fault_iff, endsBy_completes (step_endsBy s)⟩

/-! ## Actions -/

theorem perform_setKey_outside {k : Nat} (outside : 15 < k) (down : Bool) (s : State) :
    perform (.setKey k down) s = .refused (.keyOutsideInterface k) := dif_neg (Nat.not_lt.mpr outside)

theorem perform_setKey_inside {k : Nat} (inside : k < 16) (down : Bool) (s : State) :
    perform (.setKey k down) s = .next (afterReport s ⟨k, inside⟩ down) := setKey_val ⟨k, inside⟩ down s

theorem perform_endsBy {a : Action} (inside : outsideInterface a = false) (s : State) :
    EndsBy (actionError a s) (perform a s) := by
  cases a with
  | new font => exact .next _
  | load bytes => exact endsBy_unless (fun fits => ⟨_, if_pos fits⟩) fun long => if_neg long
  | step => exact step_endsBy s
  | tickTimers => exact .next _
  | setKey k down =>
    have index : ¬ 15 < k := of_decide_eq_false inside
    exact endsBy_of_next (perform_setKey_inside (by omega) down s)
  | snapshot => exact .next _
  | read x y =>
    exact endsBy_unless (fun ⟨hx, hy⟩ => ⟨s, perform_read_inside s hx hy⟩) fun outside => perform_read_outside s (by omega)

theorem perform_fault_iff {a : Action} {s : State} {e : Fault} : perform a s = .fault e ↔ actionError a s = some e := by
  by_cases inside : outsideInterface a = false
  · exact endsBy_fault_iff (perform_endsBy inside s)
  · cases a with
    | setKey k down =>
      have outside : 15 < k := of_decide_eq_true (Bool.eq_true_of_not_eq_false inside)
      rw [perform_setKey_outside outside]
      exact iff_of_false nofun nofun
    | _ => exact absurd rfl inside

/-! ## The repetition of an error -/

/-- `t` is `s` but for DT, ST and the key states. -/
def SameButTimersAndKeys (s t : State) : Prop := t = { s with dt := t.dt, st := t.st, keys := t.keys }

theorem sameButTimersAndKeys_update {s t : State} (h : SameButTimersAndKeys s t) (dt st : Byte) (keys : Vector Bool 16) :
    SameButTimersAndKeys s { t with dt := dt, st := st, keys := keys } := by
  unfold SameButTimersAndKeys
  rw [h]

/-- The checks of a step look at no timer and no key state (`stepError_timers_keys`), so its error stands. -/
theorem step_fault_of_same {s t : State} {e : Fault} (same : SameButTimersAndKeys s t) (failed : step s = .fault e) :
    step t = .fault e := by
  rw [step_fault_iff] at failed ⊢
  rw [same, stepError_timers_keys, failed]

theorem awake_of_step_fault {s : State} {e : Fault} (failed : step s = .fault e) : s.aw = none :=
  Option.eq_none_iff_forall_ne_some.mpr fun r waiting => by
    rw [step_of_waiting waiting] at failed
    cases failed

/-- In a state whose step fails, every action but `load` and `new` leaves all but timers and key states: a step by failing. -/
theorem settle_perform_of_step_fault {s : State} {e : Fault} (failed : step s = .fault e) {a : Action}
    (other : isLoadOrNew a = false) :
    ∃ dt st keys, settle s (perform a s) = { s with dt := dt, st := st, keys := keys } := by
  by_cases h : a = .step
  · subst h
    exact ⟨s.dt, s.st, s.keys, by rw [perform, failed, settle]⟩
  · exact settle_perform_host (awake_of_step_fault failed) h other

theorem after_same_of_step_fault {s : State} {e : Fault} {actions : List Action} (failed : step s = .fault e)
    (others : ∀ a ∈ actions, isLoadOrNew a = false) : SameButTimersAndKeys s (after actions s) := by
  refine after_induct (fun a mem t same => ?_) (P := SameButTimersAndKeys s) rfl
  obtain ⟨dt, st, keys, settled⟩ := settle_perform_of_step_fault (step_fault_of_same same failed) (others a mem)
  rw [settled]
  exact sameButTimersAndKeys_update same dt st keys

/-- Settles O9: `perform_fault_iff` and `perform_endsBy` for one action; over a run, `after_same_of_step_fault`. -/
theorem actionErrorsAreExactlyTheseAndRepeat : Obligations.ActionErrorsAreExactlyTheseAndRepeat := by
  refine ⟨fun a s => ⟨fun _ => perform_fault_iff, fun errorless inside => ?_⟩, fun s e actions failed others => ?_⟩
  · exact endsBy_completes (perform_endsBy inside s) errorless
  · have same := after_same_of_step_fault failed others
    exact ⟨step_fault_of_same same failed, same⟩

/-! ## OutOfRangePixel -/

theorem accessError_ne_outOfRangePixel (pc : Word) (a n x y : Nat) : accessError pc a n ≠ some (.outOfRangePixel x y) := by
  unfold accessError
  split <;> nofun

theorem keyError_ne_outOfRangePixel (s : State) (r : Reg) (x y : Nat) : keyError s r ≠ some (.outOfRangePixel x y) := by
  unfold keyError
  split <;> nofun

theorem ownError_ne_outOfRangePixel (s : State) (i : Instr) (x y : Nat) : ownError s i ≠ some (.outOfRangePixel x y) := by
  cases i with
  | ret => simp [ownError]
  | call nnn => simp [ownError]
  | drw vx vy n => exact accessError_ne_outOfRangePixel _ _ _ x y
  | skp r => exact keyError_ne_outOfRangePixel s r x y
  | sknp r => exact keyError_ne_outOfRangePixel s r x y
  | ldB r => exact accessError_ne_outOfRangePixel _ _ _ x y
  | storeRegs r => exact accessError_ne_outOfRangePixel _ _ _ x y
  | loadRegs r => exact accessError_ne_outOfRangePixel _ _ _ x y
  | _ => nofun

theorem stepError_ne_outOfRangePixel (s : State) (x y : Nat) : stepError s ≠ some (.outOfRangePixel x y) := by
  unfold stepError
  split
  · nofun
  · split
    · nofun
    · split
      · nofun
      · next i _ => exact ownError_ne_outOfRangePixel s i x y

/-- Only the host's pixel read has OutOfRangePixel as its error, and only outside the grid. -/
theorem actionError_outOfRangePixel {a : Action} {s : State} {x y : Nat}
    (h : actionError a s = some (.outOfRangePixel x y)) : a = .read x y ∧ (64 ≤ x ∨ 32 ≤ y) := by
  cases a with
  | step => exact absurd h (stepError_ne_outOfRangePixel s x y)
  | load bytes =>
    simp [actionError] at h
  | read x' y' =>
    simp only [actionError] at h
    split at h
    · cases h
    · next outside =>
      cases h
      exact ⟨rfl, by omega⟩
  | _ => cases h

/-- Settles O10: the errors of steps and actions are `stepError` and `actionError`, and only a read's can be this one. -/
theorem onlyTheHostReadRaisesOutOfRangePixel : Obligations.OnlyTheHostReadRaisesOutOfRangePixel :=
  ⟨fun s x y failed => stepError_ne_outOfRangePixel s x y (step_fault_iff.mp failed),
    fun _ _ _ _ failed => actionError_outOfRangePixel (perform_fault_iff.mp failed)⟩

/-! ## Timers and keys -/

/-- Settles O48: each timer by `toNat_tickDown`. -/
theorem tickDecrementsBothTimers : Obligations.TickDecrementsBothTimers :=
  fun s => ⟨tickTimers s, rfl, toNat_tickDown s.dt, toNat_tickDown s.st, rfl⟩

/-- A report that is no press in a wait with an empty latch leaves the latch. -/
theorem kp_afterReport_of_not_latching {s : State} {k : Key} {down : Bool}
    (h : ¬ (down = true ∧ s.aw ≠ none ∧ s.kp = none)) : (afterReport s k down).kp = s.kp := by
  by_cases awake : s.aw = none
  · exact kp_afterReport_of_awake awake k down
  · rw [kp_afterReport_of_waiting awake]
    cases latch : s.kp with
    | some j => rfl
    | none =>
      have up : ¬ down = true := fun press => h ⟨press, awake, latch⟩
      rw [Option.none_or, pressOf, if_neg up]

/-- Settles O49: `perform_setKey_outside`, or the state `afterReport`, its latch by whether the report is a press that an empty
latch of a wait takes. -/
theorem setKeyWritesTheKeyAndTheLatch : Obligations.SetKeyWritesTheKeyAndTheLatch := by
  refine fun s k down => ⟨fun outside => perform_setKey_outside outside down s, fun inside => ?_⟩
  refine ⟨_, perform_setKey_inside (Nat.lt_succ_of_le inside) down s, fun j => ?_, ?_, kp_afterReport_of_not_latching, rfl⟩
  · have written := keyDown_setKeyState s ⟨k, Nat.lt_succ_of_le inside⟩ j down
    simp only [Fin.ext_iff] at written
    exact written
  · rintro ⟨press, waiting, unlatched⟩
    rw [kp_afterReport_of_waiting waiting, unlatched, Option.none_or, pressOf, if_pos press]
    rfl

end Sys2Proof.Proofs
end

section
/-! SUPPORT. Reset and boot: what `new` and `load` leave in memory, that nothing but a load makes the first step decode, and that
a waiting program waits for a press (spec 70_reset_and_hazards.md R250 to R256, 20_memory.md R60). -/

namespace Sys2Proof.Proofs

open Sys2Proof Sys2Proof.Machine Sys2Proof.Laws

/-! ## Loading an image -/

theorem perform_load_long {bytes : List Byte} (long : 3584 < bytes.length) (s : State) :
    perform (.load bytes) s = .fault (.loadError bytes.length) := if_neg (Nat.not_le.mpr long)

theorem perform_load_short {bytes : List Byte} (short : bytes.length ≤ 3584) (s : State) :
    perform (.load bytes) s = .next (setMem s (s.mem.writeBytes 0x200 bytes)) := if_pos short

theorem perform_load_next {bytes : List Byte} {s t : State} (h : perform (.load bytes) s = .next t) :
    t = setMem s (s.mem.writeBytes 0x200 bytes) := by
  by_cases short : bytes.length ≤ 3584
  · rw [perform_load_short short] at h
    exact (Host.Outcome.next.inj h).symm
  · rw [perform_load_long (Nat.lt_of_not_le short)] at h
    cases h

/-- Settles O50: `perform_load_long`, or `perform_load_short` with what the written memory reads. -/
theorem loadCopiesTheImage : Obligations.LoadCopiesTheImage := by
  refine fun s bytes wf => ⟨fun long => perform_load_long long s, fun short => ?_⟩
  have done := perform_load_short short s
  have fits : 0x200 + bytes.length ≤ 0x1000 := Nat.add_le_add_left short 0x200
  exact ⟨_, done, reply_of_next done, rfl, fun _ hk => read_writeBytes wf (.inr fits) hk,
    fun _ outside => read_writeBytes_other s.mem 0x200 bytes outside⟩

/-! ## Reset -/

theorem read_new_font (font : Vector Byte 80) (s : State) {a : Nat} (h : a < 80) : (new font s).mem.read a = font[a] := by
  have listed : a < font.toList.length := by rwa [Vector.length_toList]
  have written := read_writeBytes (a := fontBase) wf_reset (.inr (by simp [fontBase])) listed
  rwa [fontBase, Nat.zero_add, Vector.getElem_toList] at written

theorem read_new_after_font (font : Vector Byte 80) (s : State) {a : Nat} (h : 80 ≤ a) : (new font s).mem.read a = 0 := by
  have beyond : fontBase + font.toList.length ≤ a := by simpa [fontBase] using h
  exact (read_writeBytes_other _ _ _ (.inr beyond)).trans (initial_of_ge h)

/-- Settles O51: memory reads as `read_new_font` and `read_new_after_font`; each register, slot, pixel and key is one of a
vector of zeros. -/
theorem newGivesEveryElementItsResetValue : Obligations.NewGivesEveryElementItsResetValue :=
  fun font s => ⟨new font s, rfl, fun r => Vector.getElem_replicate r.isLt, rfl, rfl, rfl,
    fun j => Vector.getElem_replicate j.isLt, rfl, rfl, pixel_clear, fun k => Vector.getElem_replicate k.isLt, rfl, rfl,
    fun _ inFont => read_new_font font s inFont, fun _ afterFont _ => read_new_after_font font s afterFont⟩

/-- A font of R60's glyphs fills memory with what reset memory reads: below 80 the glyphs (`read_reset_glyph`), then zeros. -/
theorem read_new_of_glyphs {font : Vector Byte 80} (s : State)
    (glyphs : ∀ (d : Fin 16) (row : Fin 5), font[5 * d.val + row.val] = glyphByte d row) (a : Nat) :
    (new font s).mem.read a = State.reset.mem.read a := by
  by_cases inFont : a < 80
  · obtain ⟨d, row, rfl⟩ : ∃ (d : Fin 16) (row : Fin 5), a = 5 * d.val + row.val :=
      ⟨⟨a / 5, by omega⟩, ⟨a % 5, by omega⟩, (Nat.div_add_mod a 5).symm⟩
    rw [read_new_font font s inFont, glyphs, read_reset_glyph]
  · have afterFont : 80 ≤ a := Nat.not_lt.mp inFont
    exact (read_new_after_font font s afterFont).trans (initial_of_ge afterFont).symm

/-- Settles O52: canonical memories that read alike are equal, so the memory of `new` is the empty list of reset. -/
theorem resetIsNewWithTheDefaultFont : Obligations.ResetIsNewWithTheDefaultFont := by
  refine ⟨fun font s glyphs => ?_, rfl, by decide⟩
  have mem : (new font s).mem = State.reset.mem :=
    eq_of_read_eq (new_inv font s).memory wf_reset (read_new_of_glyphs s glyphs)
  calc new font s
      = { State.reset with mem := (new font s).mem, draws := s.draws } := rfl
    _ = { State.reset with draws := s.draws } := by rw [mem]

/-! ## Before any load -/

/-- The zero word matches no pattern, so a step at 0x200 that finds it there is InvalidOpcode. -/
theorem step_of_zero_word_at_origin {s : State} (awake : s.aw = none) (origin : s.pc = 0x200) (hi : s.mem.read 0x200 = 0)
    (lo : s.mem.read 0x201 = 0) : step s = .fault (.invalidOpcode 0x200 0x0000) := by
  have zero : wordAtPc s = 0 := by simp [wordAtPc, origin, hi, lo]
  have failed := step_of_invalidOpcode awake (by rw [origin]; decide) (by rw [zero]; decide)
  rwa [origin, zero] at failed

theorem step_new (font : Vector Byte 80) (s : State) : step (new font s) = .fault (.invalidOpcode 0x200 0x0000) :=
  step_of_zero_word_at_origin rfl rfl (read_new_after_font font s (by decide)) (read_new_after_font font s (by decide))

/-- `s` is a state that `new` gives, but for timers and key states. -/
def Unloaded (s : State) : Prop := ∃ font u, SameButTimersAndKeys (new font u) s

theorem unloaded_new (font : Vector Byte 80) (s : State) : Unloaded (new font s) := ⟨font, s, rfl⟩

theorem step_of_unloaded {s : State} (h : Unloaded s) : step s = .fault (.invalidOpcode 0x200 0x0000) := by
  obtain ⟨font, u, same⟩ := h
  exact step_fault_of_same same (step_new font u)

/-- Without a load the state stays `Unloaded`: `new` starts afresh, and every other action leaves a state whose step fails as it
was but for timers and key states. -/
theorem unloaded_settle_perform {s : State} (h : Unloaded s) {a : Action} (noLoad : isLoad a = false) :
    Unloaded (settle s (perform a s)) := by
  by_cases other : isLoadOrNew a = false
  · obtain ⟨dt, st, keys, settled⟩ := settle_perform_of_step_fault (step_of_unloaded h) other
    obtain ⟨font, u, same⟩ := h
    rw [settled]
    exact ⟨font, u, sameButTimersAndKeys_update same dt st keys⟩
  · cases a with
    | new font => exact unloaded_new font s
    | load bytes => cases noLoad
    | _ => exact absurd rfl other

/-- Settles O53: `step_of_zero_word_at_origin` for one state; a run without a load keeps `Unloaded`. -/
theorem stepBeforeLoadIsInvalidOpcode : Obligations.StepBeforeLoadIsInvalidOpcode := by
  refine ⟨fun _ => step_of_zero_word_at_origin, fun font s actions noLoad => step_of_unloaded ?_⟩
  exact after_induct (P := Unloaded) (fun a mem _ kept => unloaded_settle_perform kept (noLoad a mem)) (unloaded_new font s)

/-! ## The key wait -/

/-- A release leaves the latch. -/
theorem afterReport_release (s : State) (k : Key) : afterReport s k false = setKeyState s k false :=
  congrArg (setKp (setKeyState s k false)) (kp_afterReport_of_not_latching (k := k) (down := false) (by simp))

theorem perform_release_next {k : Nat} {s t : State} (h : perform (.setKey k false) s = .next t) :
    ∃ inside : k < 16, t = setKeyState s ⟨k, inside⟩ false := by
  by_cases inside : k < 16
  · rw [perform_setKey_inside inside, afterReport_release] at h
    exact ⟨inside, (Host.Outcome.next.inj h).symm⟩
  · rw [perform_setKey_outside (by omega)] at h
    cases h

/-- Settles O47: a step is a wait step without a latch (`step_of_unlatched`), and a key report is a release. -/
theorem noProgressInAWaitWithoutAPress : Obligations.NoProgressInAWaitWithoutAPress := by
  intro a s t waiting unlatched keeps h
  cases a with
  | new font => cases keeps
  | load bytes =>
    rw [perform_load_next h]
    rfl
  | step =>
    obtain ⟨r, waits⟩ := Option.ne_none_iff_exists'.mp waiting
    rw [perform, step_of_unlatched waits unlatched] at h
    cases h
    rfl
  | tickTimers =>
    cases h
    rfl
  | setKey k down =>
    have release : down = false := by simpa [keepsWaiting] using keeps
    subst release
    obtain ⟨inside, rfl⟩ := perform_release_next h
    rfl
  | snapshot =>
    cases h
    rfl
  | read x y =>
    rw [hostRead_next h]

end Sys2Proof.Proofs
end
